-- ==== Sys2Proof/Word.lean ====
section
/-! DEFINITION. The machine's fixed widths (spec/00_scope.md R8): 32-bit words, 8-bit bytes, 5-bit register indices. -/

namespace Sys2Proof

/-- A word: register, program counter, address or instruction (00_scope R8). -/
abbrev Word := BitVec 32

/-- A byte of the Data Memory (00_scope R8). -/
abbrev Byte := BitVec 8

/-- A register index, 0 .. 31 (10_state R21). -/
abbrev RegIdx := BitVec 5

end Sys2Proof
end

