-- ==== Sys2Proof/Machine/Flags.lean ====
section
/-! DEFINITION. The hardware has no flags and no condition codes (spec/10_state.md R32, 40_datapath_blocks R157). The one
condition it evaluates is whether a branch's difference is zero, within the cycle, and it is not stored. -/

namespace Sys2Proof.Machine

/-- The zero test of the execute phase (41_cycle_sequencer R163). -/
def isZero (w : Word) : Bool := w == 0#32

/-- A branch is taken when the difference of its operands is zero (47_branch R235). -/
def branchTaken (a b : Word) : Bool := isZero (a - b)

end Sys2Proof.Machine
end

