-- ==== Sys2Proof/Syntax.lean ====
section
/-! DEFINITION. The instructions: one constructor for each of the 32 rows of spec/opcode_table.json (12 named, 20 unnamed;
30_encoding R98, R104).

Operands are the fields of the row's format, at their encoded widths. A field the hardware ignores (30_encoding R106) is kept
as an operand, so that decoding loses no bit; no meaning reads one (DESIGN CHOICE, log entry 16). `func3` and `func7` are
operands only where the row does not fix them. `disp` is the whole displacement with its trailing zero bit (R93, R95). -/

namespace Sys2Proof

/-- An instruction of the CORE. -/
inductive Instr where
  -- opcode 0x13, I format (42_op_imm)
  | ori (rd rs1 : RegIdx) (imm : BitVec 12)
  | srai (rd rs1 : RegIdx) (shamt : BitVec 5) (upper7 : BitVec 7)
  | opimmAdd (rd rs1 : RegIdx) (imm : BitVec 12)
  | opimmSub (rd rs1 : RegIdx) (imm : BitVec 12)
  | opimmXor (rd rs1 : RegIdx) (imm : BitVec 12)
  | opimmAddF1 (rd rs1 : RegIdx) (imm : BitVec 12)
  | opimmAddF23 (rd rs1 : RegIdx) (imm : BitVec 12) (func3 : BitVec 3)
  | opimmAddF7 (rd rs1 : RegIdx) (imm : BitVec 12)
  -- opcode 0x33, R format (43_op_reg)
  | add (rd rs1 rs2 : RegIdx) (func7 : BitVec 7)
  | sub (rd rs1 rs2 : RegIdx) (func7 : BitVec 7)
  | xor (rd rs1 rs2 : RegIdx) (func7 : BitVec 7)
  | opSra (rd rs1 rs2 : RegIdx) (func7 : BitVec 7)
  | opOr (rd rs1 rs2 : RegIdx) (func7 : BitVec 7)
  | opAddF1 (rd rs1 rs2 : RegIdx) (func7 : BitVec 7)
  | opAddF23 (rd rs1 rs2 : RegIdx) (func7 : BitVec 7) (func3 : BitVec 3)
  | opAddF7 (rd rs1 rs2 : RegIdx) (func7 : BitVec 7)
  -- opcode 0x03, I format (44_load)
  | lb (rd rs1 : RegIdx) (imm : BitVec 12)
  | lw (rd rs1 : RegIdx) (imm : BitVec 12)
  | loadF1 (rd rs1 : RegIdx) (imm : BitVec 12)
  | loadF3 (rd rs1 : RegIdx) (imm : BitVec 12)
  | loadF47 (rd rs1 : RegIdx) (imm : BitVec 12) (func3 : BitVec 3)
  -- opcode 0x23, S format (45_store)
  | sb (rs1 rs2 : RegIdx) (imm : BitVec 12)
  | sw (rs1 rs2 : RegIdx) (imm : BitVec 12)
  | storeF1 (rs1 rs2 : RegIdx) (imm : BitVec 12)
  | storeF3 (rs1 rs2 : RegIdx) (imm : BitVec 12)
  | storeF47 (rs1 rs2 : RegIdx) (imm : BitVec 12) (func3 : BitVec 3)
  -- opcode 0x37, U format (46_lui)
  | lui (rd : RegIdx) (imm : BitVec 20)
  -- opcode 0x63, B format (47_branch)
  | beq (rs1 rs2 : RegIdx) (disp : BitVec 13)
  | branchF1 (rs1 rs2 : RegIdx) (disp : BitVec 13)
  | branchF23 (rs1 rs2 : RegIdx) (disp : BitVec 13) (func3 : BitVec 3)
  | branchF47 (rs1 rs2 : RegIdx) (disp : BitVec 13) (func3 : BitVec 3)
  -- opcode 0x6F, J format (48_jump)
  | jal (rd : RegIdx) (disp : BitVec 21)
  deriving DecidableEq, Repr

end Sys2Proof
end

