-- ==== Sys2Proof/WellFormed.lean ====
section
/-! DEFINITION. Which terms of `Instr` stand for an instruction word: the operand checks that the rows of
spec/opcode_table.json and the formats of 30_encoding make. -/

namespace Sys2Proof

/-- `func3` is 2 or 3 (the rows whose mask leaves bit 12 free). -/
def isFunc3TwoOrThree (f : BitVec 3) : Bool := f == 2#3 || f == 3#3

/-- `func3` is 4, 5, 6 or 7 (the rows whose mask leaves bits 13:12 free). -/
def isFunc3FourToSeven (f : BitVec 3) : Bool := f == 4#3 || f == 5#3 || f == 6#3 || f == 7#3

/-- The operands are ones the row's encoding admits. Word bit 30, which separates add from subtract when `func3 = 0`, is
immediate bit 10 in the I format (42_op_imm R192, R193) and `func7` bit 5 in the R format (43_op_reg R200, R201). A
displacement is even (30_encoding R93, R95). -/
def Instr.wf : Instr → Bool
  | .ori _ _ _ => true
  | .srai _ _ _ _ => true
  | .opimmAdd _ _ imm => !imm.getLsbD 10
  | .opimmSub _ _ imm => imm.getLsbD 10
  | .opimmXor _ _ _ => true
  | .opimmAddF1 _ _ _ => true
  | .opimmAddF23 _ _ _ func3 => isFunc3TwoOrThree func3
  | .opimmAddF7 _ _ _ => true
  | .add _ _ _ func7 => !func7.getLsbD 5
  | .sub _ _ _ func7 => func7.getLsbD 5
  | .xor _ _ _ _ => true
  | .opSra _ _ _ _ => true
  | .opOr _ _ _ _ => true
  | .opAddF1 _ _ _ _ => true
  | .opAddF23 _ _ _ _ func3 => isFunc3TwoOrThree func3
  | .opAddF7 _ _ _ _ => true
  | .lb _ _ _ => true
  | .lw _ _ _ => true
  | .loadF1 _ _ _ => true
  | .loadF3 _ _ _ => true
  | .loadF47 _ _ _ func3 => isFunc3FourToSeven func3
  | .sb _ _ _ => true
  | .sw _ _ _ => true
  | .storeF1 _ _ _ => true
  | .storeF3 _ _ _ => true
  | .storeF47 _ _ _ func3 => isFunc3FourToSeven func3
  | .lui _ _ => true
  | .beq _ _ disp => !disp.getLsbD 0
  | .branchF1 _ _ disp => !disp.getLsbD 0
  | .branchF23 _ _ disp func3 => !disp.getLsbD 0 && isFunc3TwoOrThree func3
  | .branchF47 _ _ disp func3 => !disp.getLsbD 0 && isFunc3FourToSeven func3
  | .jal _ disp => !disp.getLsbD 0

/-- The term stands for an instruction word. -/
abbrev Instr.WellFormed (i : Instr) : Prop := i.wf = true

end Sys2Proof
end

