-- ==== Sys2Proof/Decode.lean ====
section
/-! DEFINITION. Instruction words: the fields (spec/30_encoding.md R81 to R83), the immediates as they stand in a word (R90 to
R95), the decoder from words to `Instr` (R98, R104, R105), and the encoder (R84 to R89).

The positions of `func3`, `rs1`, `rs2`, `func7`, the I immediate and the shift amount are the spec's decision D6 from general
knowledge (G1, G2; UNVERIFIED, log entry 13). -/

namespace Sys2Proof

/-! ### Fields of a word -/

/-- `I[6:0]` (30_encoding R81). -/
def opcodeOf (w : Word) : BitVec 7 := w.extractLsb' 0 7
/-- `I[11:7]` (30_encoding R82). -/
def rdOf (w : Word) : RegIdx := w.extractLsb' 7 5
/-- `I[14:12]` (30_encoding R83). -/
def func3Of (w : Word) : BitVec 3 := w.extractLsb' 12 3
/-- `I[19:15]` (30_encoding R83). -/
def rs1Of (w : Word) : RegIdx := w.extractLsb' 15 5
/-- `I[24:20]` (30_encoding R83). -/
def rs2Of (w : Word) : RegIdx := w.extractLsb' 20 5
/-- `I[31:25]` (30_encoding R83). -/
def func7Of (w : Word) : BitVec 7 := w.extractLsb' 25 7
/-- "func7 bit 5", `I[30]` (30_encoding R83, 40_datapath_blocks R145). -/
def func7b5Of (w : Word) : Bool := w.getLsbD 30

/-- The I-type immediate field `I[31:20]` (30_encoding R90). -/
def immIOf (w : Word) : BitVec 12 := w.extractLsb' 20 12
/-- The shift amount `I[24:20]` (30_encoding R91). -/
def shamtOf (w : Word) : BitVec 5 := w.extractLsb' 20 5
/-- The S-type immediate field `I[31:25] ++ I[11:7]` (30_encoding R92). -/
def immSOf (w : Word) : BitVec 12 := w.extractLsb' 25 7 ++ w.extractLsb' 7 5
/-- The B-type displacement field `I[31] ++ I[7] ++ I[30:25] ++ I[11:8] ++ 0` (30_encoding R93). -/
def dispBOf (w : Word) : BitVec 13 :=
  w.extractLsb' 31 1 ++ w.extractLsb' 7 1 ++ w.extractLsb' 25 6 ++ w.extractLsb' 8 4 ++ 0#1
/-- The U-type immediate field `I[31:12]` (30_encoding R94). -/
def immUOf (w : Word) : BitVec 20 := w.extractLsb' 12 20
/-- The J-type displacement field `I[31] ++ I[19:12] ++ I[20] ++ I[30:21] ++ 0` (30_encoding R95). -/
def dispJOf (w : Word) : BitVec 21 :=
  w.extractLsb' 31 1 ++ w.extractLsb' 12 8 ++ w.extractLsb' 20 1 ++ w.extractLsb' 21 10 ++ 0#1

/-! ### The seven opcodes (30_encoding R98) -/

def opcodeOpImm : BitVec 7 := 0x13#7
def opcodeOpReg : BitVec 7 := 0x33#7
def opcodeLoad : BitVec 7 := 0x03#7
def opcodeStore : BitVec 7 := 0x23#7
def opcodeLui : BitVec 7 := 0x37#7
def opcodeBranch : BitVec 7 := 0x63#7
def opcodeJal : BitVec 7 := 0x6F#7

/-- The supported opcodes, in the order of 30_encoding R98. -/
def supportedOpcodes : List (BitVec 7) :=
  [opcodeOpImm, opcodeOpReg, opcodeLoad, opcodeStore, opcodeLui, opcodeBranch, opcodeJal]

/-! ### The decoder -/

/-- Why a word or a run of bytes is no instruction. -/
inductive Reject where
  /-- the opcode is outside the seven supported ones (30_encoding R105); the cycle then raises UnsupportedOpcode -/
  | unsupportedOpcode (w : Word)
  /-- fewer than four bytes are left (30_encoding R80: every instruction is 32 bits long); only `decodeBytes` answers so -/
  | truncated
  deriving DecidableEq, Repr

/-- Opcode 0x13: rows ORI, SRAI and the six unnamed ones (42_op_imm R190 to R195). -/
def decodeOpImm (w : Word) : Instr :=
  if func3Of w = 0#3 then
    if func7b5Of w then .opimmSub (rdOf w) (rs1Of w) (immIOf w) else .opimmAdd (rdOf w) (rs1Of w) (immIOf w)
  else if func3Of w = 1#3 then .opimmAddF1 (rdOf w) (rs1Of w) (immIOf w)
  else if func3Of w = 4#3 then .opimmXor (rdOf w) (rs1Of w) (immIOf w)
  else if func3Of w = 5#3 then .srai (rdOf w) (rs1Of w) (shamtOf w) (func7Of w)
  else if func3Of w = 6#3 then .ori (rdOf w) (rs1Of w) (immIOf w)
  else if func3Of w = 7#3 then .opimmAddF7 (rdOf w) (rs1Of w) (immIOf w)
  else .opimmAddF23 (rdOf w) (rs1Of w) (immIOf w) (func3Of w)

/-- Opcode 0x33: rows ADD, SUB, XOR and the five unnamed ones (43_op_reg R200 to R205). -/
def decodeOpReg (w : Word) : Instr :=
  if func3Of w = 0#3 then
    if func7b5Of w then .sub (rdOf w) (rs1Of w) (rs2Of w) (func7Of w)
    else .add (rdOf w) (rs1Of w) (rs2Of w) (func7Of w)
  else if func3Of w = 1#3 then .opAddF1 (rdOf w) (rs1Of w) (rs2Of w) (func7Of w)
  else if func3Of w = 4#3 then .xor (rdOf w) (rs1Of w) (rs2Of w) (func7Of w)
  else if func3Of w = 5#3 then .opSra (rdOf w) (rs1Of w) (rs2Of w) (func7Of w)
  else if func3Of w = 6#3 then .opOr (rdOf w) (rs1Of w) (rs2Of w) (func7Of w)
  else if func3Of w = 7#3 then .opAddF7 (rdOf w) (rs1Of w) (rs2Of w) (func7Of w)
  else .opAddF23 (rdOf w) (rs1Of w) (rs2Of w) (func7Of w) (func3Of w)

/-- Opcode 0x03: rows LB, LW and the three unnamed ones (44_load R210 to R212). -/
def decodeLoad (w : Word) : Instr :=
  if func3Of w = 0#3 then .lb (rdOf w) (rs1Of w) (immIOf w)
  else if func3Of w = 1#3 then .loadF1 (rdOf w) (rs1Of w) (immIOf w)
  else if func3Of w = 2#3 then .lw (rdOf w) (rs1Of w) (immIOf w)
  else if func3Of w = 3#3 then .loadF3 (rdOf w) (rs1Of w) (immIOf w)
  else .loadF47 (rdOf w) (rs1Of w) (immIOf w) (func3Of w)

/-- Opcode 0x23: rows SB, SW and the three unnamed ones (45_store R220 to R222). -/
def decodeStore (w : Word) : Instr :=
  if func3Of w = 0#3 then .sb (rs1Of w) (rs2Of w) (immSOf w)
  else if func3Of w = 1#3 then .storeF1 (rs1Of w) (rs2Of w) (immSOf w)
  else if func3Of w = 2#3 then .sw (rs1Of w) (rs2Of w) (immSOf w)
  else if func3Of w = 3#3 then .storeF3 (rs1Of w) (rs2Of w) (immSOf w)
  else .storeF47 (rs1Of w) (rs2Of w) (immSOf w) (func3Of w)

/-- Opcode 0x63: rows BEQ and the three unnamed ones (47_branch R235, R236). -/
def decodeBranch (w : Word) : Instr :=
  if func3Of w = 0#3 then .beq (rs1Of w) (rs2Of w) (dispBOf w)
  else if func3Of w = 1#3 then .branchF1 (rs1Of w) (rs2Of w) (dispBOf w)
  else if func3Of w = 2#3 ∨ func3Of w = 3#3 then .branchF23 (rs1Of w) (rs2Of w) (dispBOf w) (func3Of w)
  else .branchF47 (rs1Of w) (rs2Of w) (dispBOf w) (func3Of w)

/-- The decoder, dispatched on the opcode alone (30_encoding R81) and total on the 2^32 words (R108). A word outside the seven
opcodes is rejected by name (R105, the spec's decision D1). Unnamed encodings decode to their own rows (R104, decision D3). -/
def decode (w : Word) : Except Reject Instr :=
  if opcodeOf w = opcodeOpImm then .ok (decodeOpImm w)
  else if opcodeOf w = opcodeOpReg then .ok (decodeOpReg w)
  else if opcodeOf w = opcodeLoad then .ok (decodeLoad w)
  else if opcodeOf w = opcodeStore then .ok (decodeStore w)
  else if opcodeOf w = opcodeLui then .ok (.lui (rdOf w) (immUOf w))
  else if opcodeOf w = opcodeBranch then .ok (decodeBranch w)
  else if opcodeOf w = opcodeJal then .ok (.jal (rdOf w) (dispJOf w))
  else .error (.unsupportedOpcode w)

/-! ### Bytes

The hardware fetches whole words; seen as bytes, an instruction word has its least significant byte at the lowest address
(20_memory R52, 70_reset_and_hazards R287). -/

/-- Four bytes, lowest address first, as a little-endian word (20_memory R50, R52). -/
def wordOfBytes (b0 b1 b2 b3 : Byte) : Word := b3 ++ b2 ++ b1 ++ b0

/-- Byte `k` of a word, byte 0 least significant (20_memory R50). -/
def byteOfWord (w : Word) (k : Nat) : Byte := w.extractLsb' (8 * k) 8

/-- The decoder on bytes: the instruction of the first four, and the bytes after it. -/
def decodeBytes : List Byte → Except Reject (Instr × List Byte)
  | b0 :: b1 :: b2 :: b3 :: rest =>
    match decode (wordOfBytes b0 b1 b2 b3) with
    | .ok i => .ok (i, rest)
    | .error r => .error r
  | _ => .error .truncated

/-! ### The encoder -/

/-- R format (30_encoding R84). -/
def encodeR (func7 : BitVec 7) (rs2 rs1 : RegIdx) (func3 : BitVec 3) (rd : RegIdx) (opcode : BitVec 7) : Word :=
  func7 ++ rs2 ++ rs1 ++ func3 ++ rd ++ opcode

/-- I format (30_encoding R85). -/
def encodeI (imm : BitVec 12) (rs1 : RegIdx) (func3 : BitVec 3) (rd : RegIdx) (opcode : BitVec 7) : Word :=
  imm ++ rs1 ++ func3 ++ rd ++ opcode

/-- S format (30_encoding R86). -/
def encodeS (imm : BitVec 12) (rs2 rs1 : RegIdx) (func3 : BitVec 3) (opcode : BitVec 7) : Word :=
  imm.extractLsb' 5 7 ++ rs2 ++ rs1 ++ func3 ++ imm.extractLsb' 0 5 ++ opcode

/-- B format (30_encoding R87). -/
def encodeB (disp : BitVec 13) (rs2 rs1 : RegIdx) (func3 : BitVec 3) (opcode : BitVec 7) : Word :=
  disp.extractLsb' 12 1 ++ disp.extractLsb' 5 6 ++ rs2 ++ rs1 ++ func3 ++ disp.extractLsb' 1 4 ++
    disp.extractLsb' 11 1 ++ opcode

/-- U format (30_encoding R88). -/
def encodeU (imm : BitVec 20) (rd : RegIdx) (opcode : BitVec 7) : Word := imm ++ rd ++ opcode

/-- J format (30_encoding R89). -/
def encodeJ (disp : BitVec 21) (rd : RegIdx) (opcode : BitVec 7) : Word :=
  disp.extractLsb' 20 1 ++ disp.extractLsb' 1 10 ++ disp.extractLsb' 11 1 ++ disp.extractLsb' 12 8 ++ rd ++ opcode

/-- The word of a well-formed instruction (30_encoding R84 to R89 with the codes of R98 and R104). -/
def encode : Instr → Word
  | .ori rd rs1 imm => encodeI imm rs1 6#3 rd opcodeOpImm
  | .srai rd rs1 shamt upper7 => encodeR upper7 shamt rs1 5#3 rd opcodeOpImm
  | .opimmAdd rd rs1 imm => encodeI imm rs1 0#3 rd opcodeOpImm
  | .opimmSub rd rs1 imm => encodeI imm rs1 0#3 rd opcodeOpImm
  | .opimmXor rd rs1 imm => encodeI imm rs1 4#3 rd opcodeOpImm
  | .opimmAddF1 rd rs1 imm => encodeI imm rs1 1#3 rd opcodeOpImm
  | .opimmAddF23 rd rs1 imm func3 => encodeI imm rs1 func3 rd opcodeOpImm
  | .opimmAddF7 rd rs1 imm => encodeI imm rs1 7#3 rd opcodeOpImm
  | .add rd rs1 rs2 func7 => encodeR func7 rs2 rs1 0#3 rd opcodeOpReg
  | .sub rd rs1 rs2 func7 => encodeR func7 rs2 rs1 0#3 rd opcodeOpReg
  | .xor rd rs1 rs2 func7 => encodeR func7 rs2 rs1 4#3 rd opcodeOpReg
  | .opSra rd rs1 rs2 func7 => encodeR func7 rs2 rs1 5#3 rd opcodeOpReg
  | .opOr rd rs1 rs2 func7 => encodeR func7 rs2 rs1 6#3 rd opcodeOpReg
  | .opAddF1 rd rs1 rs2 func7 => encodeR func7 rs2 rs1 1#3 rd opcodeOpReg
  | .opAddF23 rd rs1 rs2 func7 func3 => encodeR func7 rs2 rs1 func3 rd opcodeOpReg
  | .opAddF7 rd rs1 rs2 func7 => encodeR func7 rs2 rs1 7#3 rd opcodeOpReg
  | .lb rd rs1 imm => encodeI imm rs1 0#3 rd opcodeLoad
  | .lw rd rs1 imm => encodeI imm rs1 2#3 rd opcodeLoad
  | .loadF1 rd rs1 imm => encodeI imm rs1 1#3 rd opcodeLoad
  | .loadF3 rd rs1 imm => encodeI imm rs1 3#3 rd opcodeLoad
  | .loadF47 rd rs1 imm func3 => encodeI imm rs1 func3 rd opcodeLoad
  | .sb rs1 rs2 imm => encodeS imm rs2 rs1 0#3 opcodeStore
  | .sw rs1 rs2 imm => encodeS imm rs2 rs1 2#3 opcodeStore
  | .storeF1 rs1 rs2 imm => encodeS imm rs2 rs1 1#3 opcodeStore
  | .storeF3 rs1 rs2 imm => encodeS imm rs2 rs1 3#3 opcodeStore
  | .storeF47 rs1 rs2 imm func3 => encodeS imm rs2 rs1 func3 opcodeStore
  | .lui rd imm => encodeU imm rd opcodeLui
  | .beq rs1 rs2 disp => encodeB disp rs2 rs1 0#3 opcodeBranch
  | .branchF1 rs1 rs2 disp => encodeB disp rs2 rs1 1#3 opcodeBranch
  | .branchF23 rs1 rs2 disp func3 => encodeB disp rs2 rs1 func3 opcodeBranch
  | .branchF47 rs1 rs2 disp func3 => encodeB disp rs2 rs1 func3 opcodeBranch
  | .jal rd disp => encodeJ disp rd opcodeJal

/-! ### The rows of spec/opcode_table.json -/

/-- A row's `mask` and `match`. -/
structure OpcodeRow where
  mask : Word
  bits : Word
  deriving DecidableEq, Repr

/-- The row of spec/opcode_table.json an instruction belongs to, copied from the table and not computed from the encoder. -/
def Instr.row : Instr → OpcodeRow
  | .ori _ _ _ => ⟨0x0000707F#32, 0x00006013#32⟩
  | .srai _ _ _ _ => ⟨0x0000707F#32, 0x00005013#32⟩
  | .opimmAdd _ _ _ => ⟨0x4000707F#32, 0x00000013#32⟩
  | .opimmSub _ _ _ => ⟨0x4000707F#32, 0x40000013#32⟩
  | .opimmXor _ _ _ => ⟨0x0000707F#32, 0x00004013#32⟩
  | .opimmAddF1 _ _ _ => ⟨0x0000707F#32, 0x00001013#32⟩
  | .opimmAddF23 _ _ _ _ => ⟨0x0000607F#32, 0x00002013#32⟩
  | .opimmAddF7 _ _ _ => ⟨0x0000707F#32, 0x00007013#32⟩
  | .add _ _ _ _ => ⟨0x4000707F#32, 0x00000033#32⟩
  | .sub _ _ _ _ => ⟨0x4000707F#32, 0x40000033#32⟩
  | .xor _ _ _ _ => ⟨0x0000707F#32, 0x00004033#32⟩
  | .opSra _ _ _ _ => ⟨0x0000707F#32, 0x00005033#32⟩
  | .opOr _ _ _ _ => ⟨0x0000707F#32, 0x00006033#32⟩
  | .opAddF1 _ _ _ _ => ⟨0x0000707F#32, 0x00001033#32⟩
  | .opAddF23 _ _ _ _ _ => ⟨0x0000607F#32, 0x00002033#32⟩
  | .opAddF7 _ _ _ _ => ⟨0x0000707F#32, 0x00007033#32⟩
  | .lb _ _ _ => ⟨0x0000707F#32, 0x00000003#32⟩
  | .lw _ _ _ => ⟨0x0000707F#32, 0x00002003#32⟩
  | .loadF1 _ _ _ => ⟨0x0000707F#32, 0x00001003#32⟩
  | .loadF3 _ _ _ => ⟨0x0000707F#32, 0x00003003#32⟩
  | .loadF47 _ _ _ _ => ⟨0x0000407F#32, 0x00004003#32⟩
  | .sb _ _ _ => ⟨0x0000707F#32, 0x00000023#32⟩
  | .sw _ _ _ => ⟨0x0000707F#32, 0x00002023#32⟩
  | .storeF1 _ _ _ => ⟨0x0000707F#32, 0x00001023#32⟩
  | .storeF3 _ _ _ => ⟨0x0000707F#32, 0x00003023#32⟩
  | .storeF47 _ _ _ _ => ⟨0x0000407F#32, 0x00004023#32⟩
  | .lui _ _ => ⟨0x0000007F#32, 0x00000037#32⟩
  | .beq _ _ _ => ⟨0x0000707F#32, 0x00000063#32⟩
  | .branchF1 _ _ _ => ⟨0x0000707F#32, 0x00001063#32⟩
  | .branchF23 _ _ _ _ => ⟨0x0000607F#32, 0x00002063#32⟩
  | .branchF47 _ _ _ _ => ⟨0x0000407F#32, 0x00004063#32⟩
  | .jal _ _ => ⟨0x0000007F#32, 0x0000006F#32⟩

/-- The opcode of an instruction (30_encoding R98). -/
def Instr.opcode : Instr → BitVec 7
  | .ori _ _ _ | .srai _ _ _ _ | .opimmAdd _ _ _ | .opimmSub _ _ _ | .opimmXor _ _ _ | .opimmAddF1 _ _ _
  | .opimmAddF23 _ _ _ _ | .opimmAddF7 _ _ _ => opcodeOpImm
  | .add _ _ _ _ | .sub _ _ _ _ | .xor _ _ _ _ | .opSra _ _ _ _ | .opOr _ _ _ _ | .opAddF1 _ _ _ _
  | .opAddF23 _ _ _ _ _ | .opAddF7 _ _ _ _ => opcodeOpReg
  | .lb _ _ _ | .lw _ _ _ | .loadF1 _ _ _ | .loadF3 _ _ _ | .loadF47 _ _ _ _ => opcodeLoad
  | .sb _ _ _ | .sw _ _ _ | .storeF1 _ _ _ | .storeF3 _ _ _ | .storeF47 _ _ _ _ => opcodeStore
  | .lui _ _ => opcodeLui
  | .beq _ _ _ | .branchF1 _ _ _ | .branchF23 _ _ _ _ | .branchF47 _ _ _ _ => opcodeBranch
  | .jal _ _ => opcodeJal

/-! ### The host's view of an opcode-table row -/

/-- The instruction word whose low `nbits` bits are `w` and whose other bits are 0. -/
def tableWord (nbits w : Nat) : Word := BitVec.ofNat 32 (w % 2 ^ nbits)

/-- The instruction the decoder reads from that word. -/
def decodeTableWord (nbits w : Nat) : Option Instr :=
  match decode (tableWord nbits w) with
  | .ok i => some i
  | .error _ => none

end Sys2Proof
end

