-- ==== Sys2Proof/Machine/Operands.lean ====
section
/-! DEFINITION. The operand forms: how an encoded immediate becomes a 32-bit operand (spec/30_encoding.md R90 to R96) and the one
addressing mode (20_memory R60). Register operands are `State.reg` and `State.setReg` in Machine/Ops.lean. -/

namespace Sys2Proof.Machine

/-- `sext_N` of 00_scope section 5.1: the two's-complement extension of an N-bit value to a word. -/
def sext {n : Nat} (v : BitVec n) : Word := v.signExtend 32

/-- The mask-then-sign-extend algorithm of 30_encoding R96 in the form of 00_scope section 5.1: keep the low `n` bits, flip bit
`n - 1`, subtract its weight. It takes the field in a word; `n` is 12, 13 or 21. -/
def sextByMask (n : Nat) (v : Word) : Word :=
  ((v &&& BitVec.ofNat 32 (2 ^ n - 1)) ^^^ BitVec.ofNat 32 (2 ^ (n - 1))) - BitVec.ofNat 32 (2 ^ (n - 1))

/-- `imm_I` (30_encoding R90). -/
def immI (imm : BitVec 12) : Word := sext imm

/-- `shamt`, zero-extended (30_encoding R91). -/
def shamtWord (shamt : BitVec 5) : Word := shamt.zeroExtend 32

/-- `imm_S` (30_encoding R92). -/
def immS (imm : BitVec 12) : Word := sext imm

/-- `disp_B` (30_encoding R93). -/
def dispB (disp : BitVec 13) : Word := sext disp

/-- `imm_U` (30_encoding R94): the field fills bits 31:12. -/
def immU (imm : BitVec 20) : Word := imm ++ 0#12

/-- `disp_J` (30_encoding R95). -/
def dispJ (disp : BitVec 21) : Word := sext disp

/-- The effective address of a load or a store, modulo 2^32 (20_memory R60). -/
def effectiveAddress (base offset : Word) : Word := base + offset

end Sys2Proof.Machine
end

