-- ==== Sys2Proof/Config.lean ====
section
/-! DEFINITION. What an implementation fixes: the size of the Data Memory, and the bound on the program's length
(spec/00_scope.md R9, R10). The spec leaves no value of a step open, so there is no free value here. -/

namespace Sys2Proof

/-- The implementation parameters of the CORE. `dmemSize` is `DMEM_SIZE` in bytes (00_scope R9). It is held in State
and no step changes it (DESIGN CHOICE, log entry 5). -/
structure Config where
  dmemSize : Nat
  deriving DecidableEq, Repr

/-- The reference sizing: 4096 bytes (00_scope R9, 10_state R36). -/
def Config.reference : Config := { dmemSize := 4096 }

/-- The constraint of 00_scope R9: 0 < DMEM_SIZE ≤ 2^32 (the spec's own decision D11). -/
abbrev Config.Valid (c : Config) : Prop := 0 < c.dmemSize ∧ c.dmemSize ≤ 2 ^ 32

/-- The largest program, in words (00_scope R10): with it `max_address` fits in 32 bits (decision D11). -/
def maxProgramWords : Nat := 2 ^ 30 - 1

end Sys2Proof
end

