-- ==== Sys2Proof/Machine/State.lean ====
section
/-! DEFINITION. The machine's state as plain data: the closed list of spec/10_state.md R20, the configuration of 00_scope R9,
and the state right after reset (10_state R41). -/

namespace Sys2Proof.Machine

/-- The Data Memory: the bytes that differ from 0x00, by rising address (`Memory.wf`). An unlisted address reads as 0x00, the
reset content the source gives (10_state R36, R41; log entry 20). -/
abbrev Memory := List Host.Cell

/-- The fault kinds of 60_exceptions R250, a closed set. When a cycle raises one, the machine goes to a NEXT state whose status
is `faulted` and nothing else changes (60_exceptions R256, 41_cycle_sequencer R170); so no step of this model ends in
`Host.Outcome.fault` (DEDUCED, log entry 1; safe: the stopped machine is a state, and it stays as it is, R171). -/
inductive Fault where
  /-- raised by the decode phase for an opcode outside the seven (60_exceptions R252); safe: the reference's undefined
  fall-through is not modelled (U2) -/
  | unsupportedOpcode
  /-- raised by the memory phase for an access outside the Data Memory (60_exceptions R253); safe: the reference's undefined
  access is not modelled (U1) -/
  | memoryOutOfBounds
  /-- raised by the fetch phase for a pc below max_address that is no multiple of 4 (60_exceptions R254); safe: the spec calls
  such a pc not valid (U5) -/
  | misalignedPC
  deriving DecidableEq, Repr

/-- Why an instruction has no meaning. Nothing raises it: every instruction of the opcode table has its meaning. -/
inductive Refusal where
  /-- the arm of `exec` for an instruction whose meaning is not written yet; safe; no arm answers so -/
  | notModelled (mnemonic : String)
  deriving DecidableEq, Repr

/-- The run status (10_state R40). `halted` and `faulted` are absorbing (41_cycle_sequencer R171). -/
inductive Status where
  | running
  | halted
  /-- the kind, the address of the faulting instruction, and the recorded word (60_exceptions R250) -/
  | faulted (kind : Fault) (pc info : Word)
  deriving DecidableEq, Repr

/-- The persistent state of the machine (10_state R20). -/
structure State where
  /-- the Register File, 32 slots (10_state R21); slot 0 is read and written only through `State.reg` and `State.setReg` -/
  regs : Vector Word 32
  /-- the Program Counter, a byte address into the Instruction Sequence (10_state R26) -/
  pc : Word
  /-- the Data Memory (10_state R36) -/
  dmem : Memory
  /-- the Instruction Sequence, immutable after load (10_state R35); its length is `NINSTR` -/
  imem : List Word
  /-- the run status (10_state R40) -/
  status : Status
  /-- the implementation parameters (00_scope R9), never changed -/
  cfg : Config
  deriving DecidableEq, Repr

/-- The outcome of a step or of an instruction. -/
abbrev Result := Host.Outcome State Fault Refusal

/-- The machine right after reset with a program loaded (10_state R41, 70_reset_and_hazards R280). The zero registers and the
zero pc are the spec's own decision D7 (UNVERIFIED, log entry 2; unsafe). -/
def State.resetWith (cfg : Config) (program : List Word) : State :=
  { regs := Vector.replicate 32 0#32
    pc := 0#32
    dmem := []
    imem := program
    status := .running
    cfg := cfg }

/-- The machine right after reset in the reference sizing, with no program loaded: the loader is outside the CORE
(00_scope R6; DESIGN CHOICE, log entry 3). -/
def State.reset : State := State.resetWith Config.reference []

end Sys2Proof.Machine
end

