-- ==== Sys2Proof/Machine/Ops.lean ====
section
/-! DEFINITION. The named operations over registers and memory, raising a fault, and the shared completions of the instruction
families. -/

namespace Sys2Proof.Machine

/-! ### Registers -/

/-- Read register `r`; `x0` reads 0 (10_state R21). -/
def State.reg (s : State) (r : RegIdx) : Word :=
  if r = 0#5 then 0#32 else s.regs[r.toNat]'r.isLt

/-- Write register `r`; a write to `x0` is discarded (10_state R22). -/
def State.setReg (s : State) (r : RegIdx) (v : Word) : State :=
  if r = 0#5 then s else { s with regs := s.regs.set r.toNat v r.isLt }

/-- The clock tick: commit the Next-PC (41_cycle_sequencer R166). -/
def State.setPc (s : State) (nextPc : Word) : State := { s with pc := nextPc }

/-- Replace the Data Memory (only the memory phase of a store does, 41_cycle_sequencer R164). -/
def State.setDmem (s : State) (m : Memory) : State := { s with dmem := m }

/-- The address of the next instruction in sequence, modulo 2^32 (10_state R28, R29). -/
def State.nextPc (s : State) : Word := s.pc + 4#32

/-- The pair the external reporter shows after a halted run: `x10` and `x11` as words (70_reset_and_hazards R288). -/
def State.reported (s : State) : Word × Word := (s.reg 10#5, s.reg 11#5)

/-! ### The Data Memory, byte by byte -/

/-- What an address that is not listed reads as: 0x00, "initialized to all zero" (10_state R36, R41). -/
def Memory.unlisted : Byte := 0#8

/-- The canonical form: addresses strictly rising, and no listed byte equal to what an unlisted address reads as. -/
abbrev Memory.wf (m : Memory) : Prop :=
  m.Pairwise (fun c d => c.1 < d.1) ∧ ∀ c ∈ m, c.2 ≠ Memory.unlisted

/-- Byte `a` of the memory. -/
def Memory.read : Memory → Nat → Byte
  | [], _ => Memory.unlisted
  | (k, b) :: rest, a => if k = a then b else Memory.read rest a

/-- Put byte `b` at `a` before `rest`, unless an unlisted address reads as `b`. -/
def Memory.cons (a : Nat) (b : Byte) (rest : Memory) : Memory :=
  if b = Memory.unlisted then rest else (a, b) :: rest

/-- Write byte `b` at address `a`, keeping the canonical form. -/
def Memory.write : Memory → Nat → Byte → Memory
  | [], a, b => Memory.cons a b []
  | (k, c) :: rest, a, b =>
    if a < k then Memory.cons a b ((k, c) :: rest)
    else if a = k then Memory.cons a b rest
    else (k, c) :: Memory.write rest a b

/-! ### Accesses of one and four bytes -/

/-- The two access widths of the hardware (20_memory R55, R58). -/
inductive Width where
  | byte
  | word
  deriving DecidableEq, Repr

/-- The number of bytes of an access. -/
def Width.bytes : Width → Nat
  | .byte => 1
  | .word => 4

/-- The little-endian word at `a` (20_memory R50, R56). -/
def Memory.readWord (m : Memory) (a : Nat) : Word :=
  wordOfBytes (m.read a) (m.read (a + 1)) (m.read (a + 2)) (m.read (a + 3))

/-- Write a word little-endian at `a` (20_memory R50, R57). -/
def Memory.writeWord (m : Memory) (a : Nat) (v : Word) : Memory :=
  (((m.write a (byteOfWord v 0)).write (a + 1) (byteOfWord v 1)).write (a + 2) (byteOfWord v 2)).write (a + 3)
    (byteOfWord v 3)

/-- An access of width `w` at `addr` is in bounds; the sum does not wrap (20_memory R55, the spec's decision D2). -/
abbrev State.InBounds (s : State) (w : Width) (addr : Word) : Prop := addr.toNat + w.bytes ≤ s.cfg.dmemSize

/-- `MemRead` (20_memory R56); `none` stands for raising MemoryOutOfBounds. No alignment is asked for (R53, decision D10). -/
def State.memRead (s : State) (w : Width) (addr : Word) : Option Word :=
  if s.InBounds w addr then
    match w with
    | .byte => some ((s.dmem.read addr.toNat).zeroExtend 32)
    | .word => some (s.dmem.readWord addr.toNat)
  else none

/-- `MemWrite` (20_memory R57); `none` stands for raising MemoryOutOfBounds, with no byte written. -/
def State.memWrite (s : State) (w : Width) (addr v : Word) : Option State :=
  if s.InBounds w addr then
    match w with
    | .byte => some (s.setDmem (s.dmem.write addr.toNat (byteOfWord v 0)))
    | .word => some (s.setDmem (s.dmem.writeWord addr.toNat v))
  else none

/-! ### Raising a fault, and halting -/

/-- Fault entry (60_exceptions R256): the status records the kind, the pc of this cycle and the word `info`; nothing else
changes. There is no return from it (R258). -/
def State.raise (s : State) (kind : Fault) (info : Word) : State :=
  { s with status := .faulted kind s.pc info }

/-- The driver stops issuing cycles (41_cycle_sequencer R167). -/
def State.halt (s : State) : State := { s with status := .halted }

/-- The optional numeric codes of the fault kinds (60_exceptions R250, the spec's decision D13). -/
def Fault.code : Fault → Nat
  | .unsupportedOpcode => 1
  | .memoryOutOfBounds => 2
  | .misalignedPC => 3

/-! ### The Instruction Sequence -/

/-- `max_address = NINSTR * 4`, in unbounded integers (10_state R35, 00_scope R10). -/
def State.maxAddress (s : State) : Nat := 4 * s.imem.length

/-- `IMem[pc / 4]` (41_cycle_sequencer R161). The default is never read: a cycle starts only with pc below max_address. -/
def State.fetchWord (s : State) : Word := s.imem.getD (s.pc.toNat / 4) 0#32

/-! ### Completions shared by the instruction families -/

/-- Write-back to `rd`, then the clock tick to the next instruction (41_cycle_sequencer R165, R166). -/
def completeReg (rd : RegIdx) (v : Word) (s : State) : Result :=
  .next ((s.setReg rd v).setPc s.nextPc)

/-- A load of the word at `addr` into `rd` (44_load R211). -/
def completeLoad (rd : RegIdx) (addr : Word) (s : State) : Result :=
  match s.memRead .word addr with
  | some v => completeReg rd v s
  | none => .next (s.raise .memoryOutOfBounds addr)

/-- A store of width `w` of `v` at `addr` (45_store R220, R221). -/
def completeStore (w : Width) (addr v : Word) (s : State) : Result :=
  match s.memWrite w addr v with
  | some t => .next (t.setPc s.nextPc)
  | none => .next (s.raise .memoryOutOfBounds addr)

/-- A branch with operands `a` and `b` and displacement `d` (47_branch R235). -/
def completeBranch (a b d : Word) (s : State) : Result :=
  .next (s.setPc (if branchTaken a b then s.pc + d else s.nextPc))

/-- A jump with displacement `d` that links the next address in `rd` (48_jump R240). Both use the pc of this cycle. -/
def completeJump (rd : RegIdx) (d : Word) (s : State) : Result :=
  .next ((s.setReg rd s.nextPc).setPc (s.pc + d))

end Sys2Proof.Machine
end

