-- ==== Sys2Proof/Machine/Branch.lean ====
section
/-! DEFINITION. Opcode 0x63, conditional branch (spec/47_branch.md): every row is branch-if-equal (30_encoding R103, R104). -/

namespace Sys2Proof.Machine

/-- BEQ (47_branch R235). -/
def execBeq (rs1 rs2 : RegIdx) (disp : BitVec 13) (s : State) : Result :=
  completeBranch (s.reg rs1) (s.reg rs2) (dispB disp) s

/-- Opcode 0x63, func3 = 1 (47_branch R236). -/
def execBranchF1 (rs1 rs2 : RegIdx) (disp : BitVec 13) (s : State) : Result :=
  completeBranch (s.reg rs1) (s.reg rs2) (dispB disp) s

/-- Opcode 0x63, func3 = 2 or 3 (47_branch R236). -/
def execBranchF23 (rs1 rs2 : RegIdx) (disp : BitVec 13) (_func3 : BitVec 3) (s : State) : Result :=
  completeBranch (s.reg rs1) (s.reg rs2) (dispB disp) s

/-- Opcode 0x63, func3 = 4 to 7 (47_branch R236). -/
def execBranchF47 (rs1 rs2 : RegIdx) (disp : BitVec 13) (_func3 : BitVec 3) (s : State) : Result :=
  completeBranch (s.reg rs1) (s.reg rs2) (dispB disp) s

end Sys2Proof.Machine
end

