-- ==== Sys2Proof/Machine/Jump.lean ====
section
/-! DEFINITION. Opcode 0x6F, jump and link (spec/48_jump.md). -/

namespace Sys2Proof.Machine

/-- JAL (48_jump R240). -/
def execJal (rd : RegIdx) (disp : BitVec 21) (s : State) : Result :=
  completeJump rd (dispJ disp) s

end Sys2Proof.Machine
end

