-- ==== Sys2Proof/Machine/Load.lean ====
section
/-! DEFINITION. Opcode 0x03, loads (spec/44_load.md). The load path does not look at `func3`: every row is the same 32-bit load
(30_encoding R101; LB too: 90_conflicts C1, decision D4, log entry 11). -/

namespace Sys2Proof.Machine

/-- LB: a 32-bit load (44_load R210). -/
def execLb (rd rs1 : RegIdx) (imm : BitVec 12) (s : State) : Result :=
  completeLoad rd (effectiveAddress (s.reg rs1) (immI imm)) s

/-- LW (44_load R211). -/
def execLw (rd rs1 : RegIdx) (imm : BitVec 12) (s : State) : Result :=
  completeLoad rd (effectiveAddress (s.reg rs1) (immI imm)) s

/-- Opcode 0x03, func3 = 1 (44_load R212). -/
def execLoadF1 (rd rs1 : RegIdx) (imm : BitVec 12) (s : State) : Result :=
  completeLoad rd (effectiveAddress (s.reg rs1) (immI imm)) s

/-- Opcode 0x03, func3 = 3 (44_load R212). -/
def execLoadF3 (rd rs1 : RegIdx) (imm : BitVec 12) (s : State) : Result :=
  completeLoad rd (effectiveAddress (s.reg rs1) (immI imm)) s

/-- Opcode 0x03, func3 = 4 to 7 (44_load R212). -/
def execLoadF47 (rd rs1 : RegIdx) (imm : BitVec 12) (_func3 : BitVec 3) (s : State) : Result :=
  completeLoad rd (effectiveAddress (s.reg rs1) (immI imm)) s

end Sys2Proof.Machine
end

