-- ==== Sys2Proof/Machine/Lui.lean ====
section
/-! DEFINITION. Opcode 0x37, load upper immediate (spec/46_lui.md). -/

namespace Sys2Proof.Machine

/-- LUI: the destination gets the immediate (46_lui R230; whether through the ALU cannot be observed, 90_conflicts C7). -/
def execLui (rd : RegIdx) (imm : BitVec 20) (s : State) : Result :=
  completeReg rd (immU imm) s

end Sys2Proof.Machine
end

