-- ==== Sys2Proof/Machine/Alu.lean ====
section
/-! DEFINITION. The ALU and the ALU Control Generator as blocks (spec/40_datapath_blocks.md R140 to R158). -/

namespace Sys2Proof.Machine

/-- The arithmetic right shift of 00_scope section 5.1 and 40_datapath_blocks R155. -/
def sra (a : Word) (n : Nat) : Word := a.sshiftRight n

/-- The operation selector: a closed set of five, so the "unknown selector" of R156 does not exist (decision D21). -/
inductive AluSel where
  | or
  | add
  | sub
  | xor
  | sra
  deriving DecidableEq, Repr

/-- The ALU (40_datapath_blocks R150). -/
def alu (op1 op2 : Word) : AluSel → Word
  | .or => op1 ||| op2
  | .add => op1 + op2
  | .sub => op1 - op2
  | .xor => op1 ^^^ op2
  | .sra => sra op1 (op2.extractLsb' 0 5).toNat

/-- The coarse operation class (40_datapath_blocks R140). -/
inductive AluClass where
  | memAddr
  | branch
  | regOp
  deriving DecidableEq, Repr

/-- The ALU Control Generator (40_datapath_blocks R144). -/
def aluControl (c : AluClass) (func3 : BitVec 3) (func7b5 : Bool) : AluSel :=
  match c with
  | .memAddr => .add
  | .branch => .sub
  | .regOp =>
    if func3 = 0#3 then (if func7b5 then .sub else .add)
    else if func3 = 4#3 then .xor
    else if func3 = 5#3 then .sra
    else if func3 = 6#3 then .or
    else .add

end Sys2Proof.Machine
end

