-- ==== Sys2Proof/Machine/OpImm.lean ====
section
/-! DEFINITION. Opcode 0x13, register-immediate operations (spec/42_op_imm.md). Unnamed rows: 30_encoding R104, decision D3. -/

namespace Sys2Proof.Machine

/-- ORI (42_op_imm R190). -/
def execOri (rd rs1 : RegIdx) (imm : BitVec 12) (s : State) : Result :=
  completeReg rd (s.reg rs1 ||| immI imm) s

/-- SRAI (42_op_imm R191). Bits 31:25 of the word are ignored. -/
def execSrai (rd rs1 : RegIdx) (shamt : BitVec 5) (_upper7 : BitVec 7) (s : State) : Result :=
  completeReg rd (sra (s.reg rs1) shamt.toNat) s

/-- Opcode 0x13, func3 = 0, `I[30]` = 0: add immediate (42_op_imm R192). -/
def execOpimmAdd (rd rs1 : RegIdx) (imm : BitVec 12) (s : State) : Result :=
  completeReg rd (s.reg rs1 + immI imm) s

/-- Opcode 0x13, func3 = 0, `I[30]` = 1: subtract immediate, the whole immediate (42_op_imm R193). -/
def execOpimmSub (rd rs1 : RegIdx) (imm : BitVec 12) (s : State) : Result :=
  completeReg rd (s.reg rs1 - immI imm) s

/-- Opcode 0x13, func3 = 4: exclusive or immediate (42_op_imm R194). -/
def execOpimmXor (rd rs1 : RegIdx) (imm : BitVec 12) (s : State) : Result :=
  completeReg rd (s.reg rs1 ^^^ immI imm) s

/-- Opcode 0x13, func3 = 1: add immediate (42_op_imm R195). -/
def execOpimmAddF1 (rd rs1 : RegIdx) (imm : BitVec 12) (s : State) : Result :=
  completeReg rd (s.reg rs1 + immI imm) s

/-- Opcode 0x13, func3 = 2 or 3: add immediate (42_op_imm R195). -/
def execOpimmAddF23 (rd rs1 : RegIdx) (imm : BitVec 12) (_func3 : BitVec 3) (s : State) : Result :=
  completeReg rd (s.reg rs1 + immI imm) s

/-- Opcode 0x13, func3 = 7: add immediate (42_op_imm R195). -/
def execOpimmAddF7 (rd rs1 : RegIdx) (imm : BitVec 12) (s : State) : Result :=
  completeReg rd (s.reg rs1 + immI imm) s

end Sys2Proof.Machine
end

