-- ==== Sys2Proof/Machine/OpReg.lean ====
section
/-! DEFINITION. Opcode 0x33, register-register operations (spec/43_op_reg.md). Of `func7` only bit 5 is examined, and only when
func3 = 0; the decoder has done that, so no meaning reads `func7` (30_encoding R106). Unnamed rows: R104, decision D3. -/

namespace Sys2Proof.Machine

/-- ADD (43_op_reg R200). -/
def execAdd (rd rs1 rs2 : RegIdx) (_func7 : BitVec 7) (s : State) : Result :=
  completeReg rd (s.reg rs1 + s.reg rs2) s

/-- SUB (43_op_reg R201). -/
def execSub (rd rs1 rs2 : RegIdx) (_func7 : BitVec 7) (s : State) : Result :=
  completeReg rd (s.reg rs1 - s.reg rs2) s

/-- XOR (43_op_reg R202). -/
def execXor (rd rs1 rs2 : RegIdx) (_func7 : BitVec 7) (s : State) : Result :=
  completeReg rd (s.reg rs1 ^^^ s.reg rs2) s

/-- Opcode 0x33, func3 = 5: arithmetic right shift by `x[rs2][4:0]` (43_op_reg R203). -/
def execOpSra (rd rs1 rs2 : RegIdx) (_func7 : BitVec 7) (s : State) : Result :=
  completeReg rd (sra (s.reg rs1) ((s.reg rs2).extractLsb' 0 5).toNat) s

/-- Opcode 0x33, func3 = 6: or (43_op_reg R204). -/
def execOpOr (rd rs1 rs2 : RegIdx) (_func7 : BitVec 7) (s : State) : Result :=
  completeReg rd (s.reg rs1 ||| s.reg rs2) s

/-- Opcode 0x33, func3 = 1: add (43_op_reg R205). -/
def execOpAddF1 (rd rs1 rs2 : RegIdx) (_func7 : BitVec 7) (s : State) : Result :=
  completeReg rd (s.reg rs1 + s.reg rs2) s

/-- Opcode 0x33, func3 = 2 or 3: add (43_op_reg R205). -/
def execOpAddF23 (rd rs1 rs2 : RegIdx) (_func7 : BitVec 7) (_func3 : BitVec 3) (s : State) : Result :=
  completeReg rd (s.reg rs1 + s.reg rs2) s

/-- Opcode 0x33, func3 = 7: add (43_op_reg R205). -/
def execOpAddF7 (rd rs1 rs2 : RegIdx) (_func7 : BitVec 7) (s : State) : Result :=
  completeReg rd (s.reg rs1 + s.reg rs2) s

end Sys2Proof.Machine
end

