-- ==== Sys2Proof/Machine/Store.lean ====
section
/-! DEFINITION. Opcode 0x23, stores (spec/45_store.md). The width is a byte if func3 = 0 and a word otherwise (30_encoding R102,
decision D5, log entry 12). -/

namespace Sys2Proof.Machine

/-- SB (45_store R220). -/
def execSb (rs1 rs2 : RegIdx) (imm : BitVec 12) (s : State) : Result :=
  completeStore .byte (effectiveAddress (s.reg rs1) (immS imm)) (s.reg rs2) s

/-- SW (45_store R221). -/
def execSw (rs1 rs2 : RegIdx) (imm : BitVec 12) (s : State) : Result :=
  completeStore .word (effectiveAddress (s.reg rs1) (immS imm)) (s.reg rs2) s

/-- Opcode 0x23, func3 = 1: a word store (45_store R222). -/
def execStoreF1 (rs1 rs2 : RegIdx) (imm : BitVec 12) (s : State) : Result :=
  completeStore .word (effectiveAddress (s.reg rs1) (immS imm)) (s.reg rs2) s

/-- Opcode 0x23, func3 = 3: a word store (45_store R222). -/
def execStoreF3 (rs1 rs2 : RegIdx) (imm : BitVec 12) (s : State) : Result :=
  completeStore .word (effectiveAddress (s.reg rs1) (immS imm)) (s.reg rs2) s

/-- Opcode 0x23, func3 = 4 to 7: a word store (45_store R222). -/
def execStoreF47 (rs1 rs2 : RegIdx) (imm : BitVec 12) (_func3 : BitVec 3) (s : State) : Result :=
  completeStore .word (effectiveAddress (s.reg rs1) (immS imm)) (s.reg rs2) s

end Sys2Proof.Machine
end

