-- ==== Sys2Proof/Machine/Dispatch.lean ====
section
/-! DEFINITION. The dispatch of a decoded instruction to its meaning, one arm per constructor. -/

namespace Sys2Proof.Machine

/-- The decode-to-tick part of one cycle for instruction `i` at the state `s` (41_cycle_sequencer R162 to R166). -/
def exec (i : Instr) (s : State) : Host.Outcome State Fault Refusal :=
  match i with
  -- opcode 0x13 (42_op_imm)
  | .ori rd rs1 imm => Sys2Proof.Machine.execOri rd rs1 imm s
  | .srai rd rs1 shamt upper7 => Sys2Proof.Machine.execSrai rd rs1 shamt upper7 s
  | .opimmAdd rd rs1 imm => Sys2Proof.Machine.execOpimmAdd rd rs1 imm s
  | .opimmSub rd rs1 imm => Sys2Proof.Machine.execOpimmSub rd rs1 imm s
  | .opimmXor rd rs1 imm => Sys2Proof.Machine.execOpimmXor rd rs1 imm s
  | .opimmAddF1 rd rs1 imm => Sys2Proof.Machine.execOpimmAddF1 rd rs1 imm s
  | .opimmAddF23 rd rs1 imm func3 => Sys2Proof.Machine.execOpimmAddF23 rd rs1 imm func3 s
  | .opimmAddF7 rd rs1 imm => Sys2Proof.Machine.execOpimmAddF7 rd rs1 imm s
  -- opcode 0x33 (43_op_reg)
  | .add rd rs1 rs2 func7 => Sys2Proof.Machine.execAdd rd rs1 rs2 func7 s
  | .sub rd rs1 rs2 func7 => Sys2Proof.Machine.execSub rd rs1 rs2 func7 s
  | .xor rd rs1 rs2 func7 => Sys2Proof.Machine.execXor rd rs1 rs2 func7 s
  | .opSra rd rs1 rs2 func7 => Sys2Proof.Machine.execOpSra rd rs1 rs2 func7 s
  | .opOr rd rs1 rs2 func7 => Sys2Proof.Machine.execOpOr rd rs1 rs2 func7 s
  | .opAddF1 rd rs1 rs2 func7 => Sys2Proof.Machine.execOpAddF1 rd rs1 rs2 func7 s
  | .opAddF23 rd rs1 rs2 func7 func3 => Sys2Proof.Machine.execOpAddF23 rd rs1 rs2 func7 func3 s
  | .opAddF7 rd rs1 rs2 func7 => Sys2Proof.Machine.execOpAddF7 rd rs1 rs2 func7 s
  -- opcode 0x03 (44_load)
  | .lb rd rs1 imm => Sys2Proof.Machine.execLb rd rs1 imm s
  | .lw rd rs1 imm => Sys2Proof.Machine.execLw rd rs1 imm s
  | .loadF1 rd rs1 imm => Sys2Proof.Machine.execLoadF1 rd rs1 imm s
  | .loadF3 rd rs1 imm => Sys2Proof.Machine.execLoadF3 rd rs1 imm s
  | .loadF47 rd rs1 imm func3 => Sys2Proof.Machine.execLoadF47 rd rs1 imm func3 s
  -- opcode 0x23 (45_store)
  | .sb rs1 rs2 imm => Sys2Proof.Machine.execSb rs1 rs2 imm s
  | .sw rs1 rs2 imm => Sys2Proof.Machine.execSw rs1 rs2 imm s
  | .storeF1 rs1 rs2 imm => Sys2Proof.Machine.execStoreF1 rs1 rs2 imm s
  | .storeF3 rs1 rs2 imm => Sys2Proof.Machine.execStoreF3 rs1 rs2 imm s
  | .storeF47 rs1 rs2 imm func3 => Sys2Proof.Machine.execStoreF47 rs1 rs2 imm func3 s
  -- opcode 0x37 (46_lui)
  | .lui rd imm => Sys2Proof.Machine.execLui rd imm s
  -- opcode 0x63 (47_branch)
  | .beq rs1 rs2 disp => Sys2Proof.Machine.execBeq rs1 rs2 disp s
  | .branchF1 rs1 rs2 disp => Sys2Proof.Machine.execBranchF1 rs1 rs2 disp s
  | .branchF23 rs1 rs2 disp func3 => Sys2Proof.Machine.execBranchF23 rs1 rs2 disp func3 s
  | .branchF47 rs1 rs2 disp func3 => Sys2Proof.Machine.execBranchF47 rs1 rs2 disp func3 s
  -- opcode 0x6F (48_jump)
  | .jal rd disp => Sys2Proof.Machine.execJal rd disp s

end Sys2Proof.Machine
end

