-- ==== Sys2Proof/Machine/Sequencer.lean ====
section
/-! DEFINITION. The sequencer: the driver's halt test, fetch, decode, and the meaning of the decoded instruction
(spec/41_cycle_sequencer.md R160 to R171), and the loader's stand-in that puts one word where the next fetch reads it. -/

namespace Sys2Proof.Machine

/-- Decode the fetched word and run it, or raise UnsupportedOpcode with the word as `info` (41_cycle_sequencer R162,
60_exceptions R252). -/
def runWord (w : Word) (s : State) : Result :=
  match decode w with
  | .ok i => exec i s
  | .error _ => .next (s.raise .unsupportedOpcode w)

/-- One driver iteration of a running machine: first the halt test (41_cycle_sequencer R167, R168, the spec's decision D12), then
the alignment of the fetch address (R161, decision D8), then the cycle. The order is 60_exceptions R259. -/
def runCycle (s : State) : Result :=
  if s.maxAddress ≤ s.pc.toNat then .next s.halt
  else if s.pc.toNat % 4 ≠ 0 then .next (s.raise .misalignedPC s.pc)
  else runWord s.fetchWord s

/-- `Step` (41_cycle_sequencer R170). Halted and faulted states are absorbing (R171). -/
def driverStep (s : State) : Result :=
  match s.status with
  | .running => runCycle s
  | .halted => .next s
  | .faulted _ _ _ => .next s

/-- `program` with word `k` replaced by `w`; if it is too short, it is first filled up with zero words. -/
def placeWord (program : List Word) (k : Nat) (w : Word) : List Word :=
  if k < program.length then program.set k w
  else program ++ List.replicate (k - program.length) 0#32 ++ [w]

end Sys2Proof.Machine
end

