-- ==== Sys2Proof/Machine/Step.lean ====
section
/-! DEFINITION. The step of the machine, and the state in which the next step runs a given word. -/

namespace Sys2Proof.Machine

/-- One step: `Step` of 41_cycle_sequencer R170. -/
def step : State → Host.Outcome State Fault Refusal := driverStep

/-- `s` with the instruction word of `nbits` and `w` where `step` fetches next, standing for a load of the program from outside
(70_reset_and_hazards R286; log entries 3 and 22): the machine is running, the pc is rounded down to a multiple of 4, and the
Instruction Sequence holds the word at `pc / 4`. -/
def State.withFetchWord (s : State) (nbits w : Nat) : State :=
  { s with
    pc := BitVec.ofNat 32 (s.pc.toNat / 4 * 4)
    imem := placeWord s.imem (s.pc.toNat / 4) (tableWord nbits w)
    status := .running }

end Sys2Proof.Machine
end

