-- ==== Sys2Proof/Machine/Datapath.lean ====
section
/-! DEFINITION. The block-level machine: the Instruction Decoder with its Control Signals (spec/40_datapath_blocks.md R120 to
R133), the phases (41_cycle_sequencer R160 to R166) and the step function R170, written from those rules and not from the
per-instruction meanings. It is a second description of the same machine; `step` is built from the meanings, and the two are
claimed equal. The transients of 10_state R38 and R39 are values passed from phase to phase here; they are not state (R172). -/

namespace Sys2Proof.Machine

/-- The Control Signals record (10_state R38). -/
structure ControlSignals where
  regWrite : Bool
  aluSrcImm : Bool
  branch : Bool
  memRead : Bool
  memWrite : Bool
  jump : Bool
  memToReg : Bool
  aluClass : AluClass
  rs2Val : Word
  func3 : BitVec 3
  disp : Word
  deriving DecidableEq, Repr

/-- The Decoder's outputs (40_datapath_blocks R121). -/
structure DecoderOut where
  op1 : Word
  op2 : Word
  rd : RegIdx
  ctrl : ControlSignals
  deriving DecidableEq, Repr

/-- The record `base` of 40_datapath_blocks R122. -/
def baseSignals (rs2Val : Word) (func3 : BitVec 3) : ControlSignals :=
  { regWrite := false, aluSrcImm := false, branch := false, memRead := false, memWrite := false, jump := false
    memToReg := false, aluClass := .regOp, rs2Val := rs2Val, func3 := func3, disp := 0#32 }

/-- `Decode(I, pc, x)` (40_datapath_blocks R122); `none` stands for raising UnsupportedOpcode (R130). -/
def decoderBlock (I pc : Word) (x : RegIdx → Word) : Option DecoderOut :=
  let base := baseSignals (x (rs2Of I)) (func3Of I)
  if opcodeOf I = 0x13#7 then
    some { op1 := x (rs1Of I)
           op2 := if func3Of I = 5#3 then (shamtOf I).zeroExtend 32 else (immIOf I).signExtend 32
           rd := rdOf I
           ctrl := { base with regWrite := true, aluSrcImm := true, aluClass := .regOp } }
  else if opcodeOf I = 0x33#7 then
    some { op1 := x (rs1Of I), op2 := x (rs2Of I), rd := rdOf I
           ctrl := { base with regWrite := true, aluClass := .regOp } }
  else if opcodeOf I = 0x03#7 then
    some { op1 := x (rs1Of I), op2 := (immIOf I).signExtend 32, rd := rdOf I
           ctrl := { base with regWrite := true, aluSrcImm := true, memRead := true, memToReg := true
                               aluClass := .memAddr } }
  else if opcodeOf I = 0x23#7 then
    some { op1 := x (rs1Of I), op2 := (immSOf I).signExtend 32, rd := rdOf I
           ctrl := { base with aluSrcImm := true, memWrite := true, aluClass := .memAddr } }
  else if opcodeOf I = 0x37#7 then
    some { op1 := 0#32, op2 := immUOf I ++ 0#12, rd := rdOf I
           ctrl := { base with regWrite := true, aluSrcImm := true, aluClass := .memAddr } }
  else if opcodeOf I = 0x63#7 then
    some { op1 := x (rs1Of I), op2 := x (rs2Of I), rd := rdOf I
           ctrl := { base with branch := true, aluClass := .branch, disp := (dispBOf I).signExtend 32 } }
  else if opcodeOf I = 0x6F#7 then
    some { op1 := pc, op2 := (dispJOf I).signExtend 32, rd := rdOf I
           ctrl := { base with regWrite := true, jump := true, aluSrcImm := true
                               disp := (dispJOf I).signExtend 32 } }
  else none

/-- What the execute phase hands on: the ALU result and the Next-PC (10_state R27, R39). -/
structure ExecuteOut where
  aluResult : Word
  nextPc : Word
  deriving DecidableEq, Repr

/-- The execute phase (41_cycle_sequencer R163, R170). -/
def executePhase (I pc : Word) (d : DecoderOut) : ExecuteOut :=
  if d.ctrl.jump then { aluResult := pc + 4#32, nextPc := pc + d.ctrl.disp }
  else if d.ctrl.branch then
    let r := alu d.op1 d.op2 .sub
    { aluResult := r, nextPc := if r = 0#32 then pc + d.ctrl.disp else pc + 4#32 }
  else
    { aluResult := alu d.op1 d.op2 (aluControl d.ctrl.aluClass d.ctrl.func3 (func7b5Of I)), nextPc := pc + 4#32 }

/-- The memory phase (41_cycle_sequencer R164): the state with the store done, and the memory data of a load (0 where there is
none; nothing reads it then). `none` stands for raising MemoryOutOfBounds at the ALU result. -/
def memoryPhase (s : State) (ctrl : ControlSignals) (aluResult : Word) : Option (State × Word) :=
  if ctrl.memWrite then
    (s.memWrite (if ctrl.func3 = 0#3 then .byte else .word) aluResult ctrl.rs2Val).map (fun t => (t, 0#32))
  else if ctrl.memRead then
    (s.memRead .word aluResult).map (fun v => (s, v))
  else some (s, 0#32)

/-- The write-back phase (41_cycle_sequencer R165). -/
def writeBackPhase (s : State) (ctrl : ControlSignals) (rd : RegIdx) (aluResult memData : Word) : State :=
  if ctrl.regWrite then s.setReg rd (if ctrl.memToReg then memData else aluResult) else s

/-- Decode, execute, memory, write-back and clock tick for the fetched word `I` (41_cycle_sequencer R170). -/
def blockCycle (I : Word) (s : State) : State :=
  match decoderBlock I s.pc s.reg with
  | none => s.raise .unsupportedOpcode I
  | some d =>
    let e := executePhase I s.pc d
    match memoryPhase s d.ctrl e.aluResult with
    | none => s.raise .memoryOutOfBounds e.aluResult
    | some (t, memData) => (writeBackPhase t d.ctrl d.rd e.aluResult memData).setPc e.nextPc

/-- `Step` of 41_cycle_sequencer R170, block by block, as a total function from state to state (R173). -/
def blockStep (s : State) : State :=
  if s.status = .running then
    if s.imem.length * 4 ≤ s.pc.toNat then s.halt
    else if s.pc.toNat % 4 = 0 then blockCycle s.fetchWord s
    else s.raise .misalignedPC s.pc
  else s

end Sys2Proof.Machine
end

