-- ==== Sys2Proof/Safety.lean ====
section
/-! DEFINITION. The terms claims are stated in: runs, safe runs, what an instruction reads and writes (spec/10_state.md R23), the
memory access and the displacement of a word, what each kind of completion changes, and the invariant of the machine. -/

namespace Sys2Proof

/-! ### What an instruction reads and writes (10_state R23) -/

/-- The register the write-back phase writes, by the table of 10_state R23. -/
def Instr.destination : Instr → Option RegIdx
  | .ori rd _ _ | .srai rd _ _ _ | .opimmAdd rd _ _ | .opimmSub rd _ _ | .opimmXor rd _ _ | .opimmAddF1 rd _ _
  | .opimmAddF23 rd _ _ _ | .opimmAddF7 rd _ _ => some rd
  | .add rd _ _ _ | .sub rd _ _ _ | .xor rd _ _ _ | .opSra rd _ _ _ | .opOr rd _ _ _ | .opAddF1 rd _ _ _
  | .opAddF23 rd _ _ _ _ | .opAddF7 rd _ _ _ => some rd
  | .lb rd _ _ | .lw rd _ _ | .loadF1 rd _ _ | .loadF3 rd _ _ | .loadF47 rd _ _ _ => some rd
  | .sb _ _ _ | .sw _ _ _ | .storeF1 _ _ _ | .storeF3 _ _ _ | .storeF47 _ _ _ _ => none
  | .lui rd _ => some rd
  | .beq _ _ _ | .branchF1 _ _ _ | .branchF23 _ _ _ _ | .branchF47 _ _ _ _ => none
  | .jal rd _ => some rd

/-- The registers the decode phase reads, by the table of 10_state R23. -/
def Instr.sources : Instr → List RegIdx
  | .ori _ rs1 _ | .srai _ rs1 _ _ | .opimmAdd _ rs1 _ | .opimmSub _ rs1 _ | .opimmXor _ rs1 _ | .opimmAddF1 _ rs1 _
  | .opimmAddF23 _ rs1 _ _ | .opimmAddF7 _ rs1 _ => [rs1]
  | .add _ rs1 rs2 _ | .sub _ rs1 rs2 _ | .xor _ rs1 rs2 _ | .opSra _ rs1 rs2 _ | .opOr _ rs1 rs2 _ | .opAddF1 _ rs1 rs2 _
  | .opAddF23 _ rs1 rs2 _ _ | .opAddF7 _ rs1 rs2 _ => [rs1, rs2]
  | .lb _ rs1 _ | .lw _ rs1 _ | .loadF1 _ rs1 _ | .loadF3 _ rs1 _ | .loadF47 _ rs1 _ _ => [rs1]
  | .sb rs1 rs2 _ | .sw rs1 rs2 _ | .storeF1 rs1 rs2 _ | .storeF3 rs1 rs2 _ | .storeF47 rs1 rs2 _ _ => [rs1, rs2]
  | .lui _ _ => []
  | .beq rs1 rs2 _ | .branchF1 rs1 rs2 _ | .branchF23 rs1 rs2 _ _ | .branchF47 rs1 rs2 _ _ => [rs1, rs2]
  | .jal _ _ => []

end Sys2Proof

namespace Sys2Proof.Machine

/-! ### Runs -/

/-- `t` comes after `s` in a run of the driver loop (41_cycle_sequencer R171). -/
inductive Reaches : State → State → Prop where
  | refl (s : State) : Reaches s s
  | tail {s t u : State} : Reaches s t → step t = .next u → Reaches s u

/-- The machine has not faulted (60_exceptions R258: a faulted run is not a halted run). -/
def State.NotFaulted (s : State) : Prop := ∀ kind pc info, s.status ≠ .faulted kind pc info

/-- A safe run: no state of it has faulted. -/
def SafeFrom (s : State) : Prop := ∀ t, Reaches s t → t.NotFaulted

/-! ### The access and the displacement of an instruction word -/

/-- The access the memory phase makes for the instruction word `w` (20_memory R58, R60): its width and its address. -/
def State.access (s : State) (w : Word) : Option (Width × Word) :=
  if opcodeOf w = opcodeLoad then some (.word, effectiveAddress (s.reg (rs1Of w)) (immI (immIOf w)))
  else if opcodeOf w = opcodeStore then
    some (if func3Of w = 0#3 then .byte else .word, effectiveAddress (s.reg (rs1Of w)) (immS (immSOf w)))
  else none

/-- The displacement of a branch or jump word (30_encoding R93, R95). -/
def displacementOf (w : Word) : Option Word :=
  if opcodeOf w = opcodeBranch then some (dispB (dispBOf w))
  else if opcodeOf w = opcodeJal then some (dispJ (dispJOf w))
  else none

/-- The bits of the word `w` that influence nothing, by the table of 30_encoding R106. For opcode 0x23 the table says that of
bits 14:12 only whether they are 000 matters, so they are ignored where they are not 000. -/
def ignoredBits (w : Word) : Word :=
  if opcodeOf w = opcodeOpImm then (if func3Of w = 5#3 then 0xFE000000#32 else 0#32)
  else if opcodeOf w = opcodeOpReg then (if func3Of w = 0#3 then 0xBE000000#32 else 0xFE000000#32)
  else if opcodeOf w = opcodeLoad then 0x00007000#32
  else if opcodeOf w = opcodeStore then (if func3Of w = 0#3 then 0#32 else 0x00007000#32)
  else if opcodeOf w = opcodeBranch then 0x00007000#32
  else 0#32

/-- A program whose branch and jump displacements are all multiples of 4 (95_test_vectors section 8, property 10). -/
def AlignedProgram (program : List Word) : Prop :=
  ∀ w ∈ program, ∀ d, displacementOf w = some d → d.toNat % 4 = 0

/-- A program without branches and jumps. -/
def StraightLine (program : List Word) : Prop := ∀ w ∈ program, displacementOf w = none

/-! ### What a completed instruction changes -/

/-- `t` is `s` with `v` in `rd` (nothing if `rd` is `x0`) and the pc at `nextPc`; every other register, every byte of memory, the
program, the status and the configuration are as in `s`. -/
structure WritesRegister (s t : State) (rd : RegIdx) (v nextPc : Word) : Prop where
  pc : t.pc = nextPc
  written : rd ≠ 0#5 → t.reg rd = v
  otherRegs : ∀ r, r ≠ rd ∨ rd = 0#5 → t.reg r = s.reg r
  memory : ∀ a, t.dmem.read a = s.dmem.read a
  program : t.imem = s.imem
  status : t.status = s.status
  config : t.cfg = s.cfg

/-- `t` is `s` with the pc at `nextPc`; all else is as in `s`. -/
structure MovesPcOnly (s t : State) (nextPc : Word) : Prop where
  pc : t.pc = nextPc
  regs : ∀ r, t.reg r = s.reg r
  memory : ∀ a, t.dmem.read a = s.dmem.read a
  program : t.imem = s.imem
  status : t.status = s.status
  config : t.cfg = s.cfg

/-- `t` is `s` with the pc at the next instruction and perhaps other bytes at the `w` addresses from `addr` on; all else is as in
`s`. -/
structure StoresAt (s t : State) (w : Width) (addr : Word) : Prop where
  pc : t.pc = s.pc + 4#32
  regs : ∀ r, t.reg r = s.reg r
  otherBytes : ∀ a, a < addr.toNat ∨ addr.toNat + w.bytes ≤ a → t.dmem.read a = s.dmem.read a
  program : t.imem = s.imem
  status : t.status = s.status
  config : t.cfg = s.cfg

/-- `t` is `s` with the status `faulted kind` that names the pc of `s` and `info`; all else is as in `s` (60_exceptions R256). -/
structure RaisesFault (s t : State) (kind : Fault) (info : Word) : Prop where
  status : t.status = .faulted kind s.pc info
  pc : t.pc = s.pc
  regs : ∀ r, t.reg r = s.reg r
  memory : ∀ a, t.dmem.read a = s.dmem.read a
  program : t.imem = s.imem
  config : t.cfg = s.cfg

/-! ### The invariant -/

/-- What a fault status says of the state that holds it (60_exceptions R250, R252 to R254): the pc is the faulting one, it is
inside the program, and the cause of that kind is there, with the recorded word. -/
def State.FaultCause (s : State) (kind : Fault) (pc info : Word) : Prop :=
  pc = s.pc ∧ s.pc.toNat < s.maxAddress ∧
    match kind with
    | .misalignedPC => s.pc.toNat % 4 ≠ 0 ∧ info = s.pc
    | .unsupportedOpcode => s.pc.toNat % 4 = 0 ∧ info = s.fetchWord ∧ opcodeOf info ∉ supportedOpcodes
    | .memoryOutOfBounds => s.pc.toNat % 4 = 0 ∧ ∃ w, s.access s.fetchWord = some (w, info) ∧ ¬ s.InBounds w info

/-- The invariant of the machine. -/
structure State.Inv (s : State) : Prop where
  /-- the Data Memory is in canonical form -/
  memoryCanonical : s.dmem.wf
  /-- every listed byte is at an address of the Data Memory (20_memory R61) -/
  memoryInside : ∀ c ∈ s.dmem, c.1 < s.cfg.dmemSize
  /-- slot 0 of the Register File is never written (10_state R22) -/
  slotZero : s.regs[0] = 0#32
  /-- the size constraint of 00_scope R9 -/
  config : s.cfg.Valid
  /-- the size constraint of 00_scope R10 -/
  programFits : s.imem.length ≤ maxProgramWords
  /-- a halted machine's pc is at or past the end of the program (41_cycle_sequencer R167) -/
  haltedOutside : s.status = .halted → s.maxAddress ≤ s.pc.toNat
  /-- a faulted machine still shows the cause it names (60_exceptions R256) -/
  faultNamed : ∀ kind pc info, s.status = .faulted kind pc info → s.FaultCause kind pc info

end Sys2Proof.Machine
end

