-- ==== Sys2Proof/Certificates/Slice0/Obligations.lean ====
section
/-! DEFINITION. The statements for the provers. Each docstring names the rule or the section of spec/ it formalises. -/

open Sys2Proof Sys2Proof.Machine

/-- For every well-formed instruction of all 32 rows, with every operand at every value its encoding admits, ignored fields
included, decode of encode is the instruction. That ignored fields are operands is a choice of this model (DESIGN CHOICE, log
entry 16). Derived from 30_encoding.md sections 1 and 3; opcode_table.json. -/
def Obligations.DecodeOfEncodeIsTheInstruction : Prop :=
  ∀ i : Instr, i.WellFormed → decode (encode i) = .ok i

/-- If decode reads an instruction from a word, that instruction is well formed and encodes to exactly that word. Decoding loses
no bit because the model keeps the bits the hardware drops (30_encoding.md rule R106) as operands of the instruction: a
choice of this model (DESIGN CHOICE, log entry 16), not a statement of the spec. Derived from 30_encoding.md sections 1, 3
and 4; opcode_table.json. -/
def Obligations.EncodeOfDecodeIsTheWord : Prop :=
  ∀ (w : Word) (i : Instr), decode w = .ok i → i.WellFormed ∧ encode i = w

/-- A word whose bits 6:0 are one of 0x13, 0x33, 0x03, 0x23, 0x37, 0x63, 0x6F decodes to an instruction of that opcode; every
other word is rejected by name with the word. The rejection is the decision D1 of the spec (log entry 9). Derived from
30_encoding.md section 4; 92_eei_decisions.md D1. -/
def Obligations.DecodeRejectsExactlyUnsupportedOpcodes : Prop :=
  ∀ w : Word,
    (w.extractLsb' 0 7 ∈ [0x13#7, 0x33#7, 0x03#7, 0x23#7, 0x37#7, 0x63#7, 0x6F#7] ∧
      ∃ i, decode w = .ok i ∧ i.opcode = w.extractLsb' 0 7) ∨
    (w.extractLsb' 0 7 ∉ [0x13#7, 0x33#7, 0x03#7, 0x23#7, 0x37#7, 0x63#7, 0x6F#7] ∧
      decode w = .error (.unsupportedOpcode w))

/-- For every word and every row of opcode_table.json (mask and match as the table prints them): the word under the mask is the
match if and only if the word decodes to an instruction of that row. So the rows are disjoint and the decoder follows them.
That unnamed rows are instructions is the decision D3 of the spec (log entry 14). Derived from opcode_table.json;
30_encoding.md section 4; 92_eei_decisions.md D3. -/
def Obligations.WordDecodesToTheRowItMatches : Prop :=
  ∀ (w : Word) (j : Instr),
    w &&& j.row.mask = j.row.bits ↔ ∃ i, decode w = .ok i ∧ i.row = j.row

/-- Ten words of the test vectors, one or more for each opcode, decode to the instruction and operands the spec prints beside
them, and the word 0x00000073 is rejected. The words are S1, S2, S4, S5, T-DEC-1, T-DEC-4, T-LD-2, T-BR-3, T-BR-11, the LB of
program P2, and T-F-1. The rejection is the decision D1 of the spec (log entry 9), that the unnamed T-BR-11 is an instruction
is D3 (log entry 14), and the places of most fields are D6 (log entry 13). Derived from 95_test_vectors.md sections 1, 2, 4,
5 and 7; 92_eei_decisions.md D1, D3 and D6. -/
def Obligations.KnownWordsDecode : Prop :=
  decode 0xFFF2E513#32 = .ok (.ori 10#5 5#5 0xFFF#12) ∧
  decode 0x4042D513#32 = .ok (.srai 10#5 5#5 4#5 0x20#7) ∧
  decode 0x40B506B3#32 = .ok (.sub 13#5 10#5 11#5 0x20#7) ∧
  decode 0x00100583#32 = .ok (.lb 11#5 0#5 1#12) ∧
  decode 0xFFC2A503#32 = .ok (.lw 10#5 5#5 0xFFC#12) ∧
  decode 0xFEA3AEA3#32 = .ok (.sw 7#5 10#5 0xFFD#12) ∧
  decode 0x12345537#32 = .ok (.lui 10#5 0x12345#20) ∧
  decode 0xFE628EE3#32 = .ok (.beq 5#5 6#5 0x1FFC#13) ∧
  decode 0x00629463#32 = .ok (.branchF1 5#5 6#5 8#13) ∧
  decode 0x014000EF#32 = .ok (.jal 1#5 20#21) ∧
  decode 0x00000073#32 = .error (.unsupportedOpcode 0x00000073#32)

/-- The byte decoder, given the four bytes of a word from bits 7:0 up to bits 31:24 and then any bytes, answers what decode
answers for the word and leaves the rest; given fewer than four bytes it answers truncated. The byte form is the choice of
this model (log entry 25). Derived from 20_memory.md section 1. -/
def Obligations.BytesOfAWordDecodeAsTheWord : Prop :=
  (∀ (w : Word) (rest : List Byte),
    decodeBytes (w.extractLsb' 0 8 :: w.extractLsb' 8 8 :: w.extractLsb' 16 8 :: w.extractLsb' 24 8 :: rest) =
      match decode w with
      | .ok i => .ok (i, rest)
      | .error r => .error r) ∧
  ∀ bytes : List Byte, bytes.length < 4 → decodeBytes bytes = .error .truncated

/-- For every 12-bit, 13-bit and 21-bit value, the extension the operands use equals keeping the field, flipping its top bit and
subtracting the weight of that bit modulo 2^32; and the extended value has the signed value of the field. Derived from
30_encoding.md section 2; 00_scope.md section 5.1. -/
def Obligations.SignExtensionIsTheMaskAlgorithm : Prop :=
  (∀ v : BitVec 12, sext v = sextByMask 12 (v.zeroExtend 32) ∧ (sext v).toInt = v.toInt) ∧
  (∀ v : BitVec 13, sext v = sextByMask 13 (v.zeroExtend 32) ∧ (sext v).toInt = v.toInt) ∧
  ∀ v : BitVec 21, sext v = sextByMask 21 (v.zeroExtend 32) ∧ (sext v).toInt = v.toInt

/-- For every word: imm_I and imm_S lie in -2048 .. 2047; disp_B is even and lies in -4096 .. 4094; disp_J is even and lies in
-1048576 .. 1048574; imm_U is a multiple of 4096; shamt is below 32. Derived from 30_encoding.md section 2;
95_test_vectors.md section 8. -/
def Obligations.ImmediatesStayInTheirRanges : Prop :=
  ∀ w : Word,
    (-2048 ≤ (immI (immIOf w)).toInt ∧ (immI (immIOf w)).toInt ≤ 2047) ∧
    (-2048 ≤ (immS (immSOf w)).toInt ∧ (immS (immSOf w)).toInt ≤ 2047) ∧
    (-4096 ≤ (dispB (dispBOf w)).toInt ∧ (dispB (dispBOf w)).toInt ≤ 4094 ∧ (dispB (dispBOf w)).toInt % 2 = 0) ∧
    (-1048576 ≤ (dispJ (dispJOf w)).toInt ∧ (dispJ (dispJOf w)).toInt ≤ 1048574 ∧
      (dispJ (dispJOf w)).toInt % 2 = 0) ∧
    (immU (immUOf w)).toNat % 4096 = 0 ∧ (shamtWord (shamtOf w)).toNat < 32

/-- In every state, register 0 reads as 0 and register i other than 0 reads the stored word of slot i of the 32 slots. A write to
register 0 changes nothing at all; a write to another register is read back from it and leaves every other register as it
was. Rule R21. -/
def Obligations.RegisterZeroReadsZero : Prop :=
  ∀ (s : State) (r : RegIdx) (v : Word),
    s.reg 0#5 = 0#32 ∧ (r ≠ 0#5 → s.reg r = s.regs[r.toNat]'r.isLt) ∧
    s.setReg 0#5 v = s ∧ (r ≠ 0#5 → (s.setReg r v).reg r = v) ∧
    ∀ q, q ≠ r → (s.setReg r v).reg q = s.reg q

/-- For every state and address A: if A + 4 <= DMEM_SIZE a word read answers the word whose bits 8k+7:8k are byte A + k; if A + 1
<= DMEM_SIZE a byte read answers byte A zero-extended; otherwise the read answers none, which the loads turn into
MemoryOutOfBounds (the decision D2 of the spec, log entry 10). No alignment is asked for (the decision D10 of the spec, log
entry 19). Derived from 20_memory.md sections 1 to 3; 92_eei_decisions.md D2 and D10. -/
def Obligations.MemReadIsLittleEndianAndBounded : Prop :=
  ∀ (s : State) (addr : Word),
    (addr.toNat + 4 ≤ s.cfg.dmemSize → ∃ v, s.memRead .word addr = some v ∧
      ∀ k < 4, v.extractLsb' (8 * k) 8 = s.dmem.read (addr.toNat + k)) ∧
    (addr.toNat + 1 ≤ s.cfg.dmemSize → ∃ v, s.memRead .byte addr = some v ∧
      v.toNat = (s.dmem.read addr.toNat).toNat) ∧
    (s.cfg.dmemSize < addr.toNat + 4 → s.memRead .word addr = none) ∧
    (s.cfg.dmemSize < addr.toNat + 1 → s.memRead .byte addr = none)

/-- For every state with a canonical memory: a write in bounds answers a state in which byte A + k of the access is bits 8k+7:8k
of the value, every other byte is as before, the memory is canonical, and the registers, pc, program, status and
configuration are as before; a write out of bounds answers none (the decision D2 of the spec, log entry 10). The canonical
form is how this model lists memory (DESIGN CHOICE, log entry 20). Derived from 20_memory.md section 3; 92_eei_decisions.md
D2. -/
def Obligations.MemWriteChangesExactlyItsBytes : Prop :=
  ∀ (s : State) (w : Width) (addr v : Word), s.dmem.wf →
    (addr.toNat + w.bytes ≤ s.cfg.dmemSize → ∃ t, s.memWrite w addr v = some t ∧
      (∀ k < w.bytes, t.dmem.read (addr.toNat + k) = v.extractLsb' (8 * k) 8) ∧
      (∀ a, a < addr.toNat ∨ addr.toNat + w.bytes ≤ a → t.dmem.read a = s.dmem.read a) ∧
      t.dmem.wf ∧ t.regs = s.regs ∧ t.pc = s.pc ∧ t.imem = s.imem ∧ t.status = s.status ∧ t.cfg = s.cfg) ∧
    (s.cfg.dmemSize < addr.toNat + w.bytes → s.memWrite w addr v = none)

/-- For every state with a canonical memory, every address A with A + 4 <= DMEM_SIZE and every word: the store answers a state in
which a word load at A answers that word. The canonical form is how this model lists memory (DESIGN CHOICE, log entry 20).
Derived from 20_memory.md section 6; 95_test_vectors.md section 8. -/
def Obligations.StoredWordLoadsBack : Prop :=
  ∀ (s : State) (addr v : Word), s.dmem.wf → addr.toNat + 4 ≤ s.cfg.dmemSize →
    ∃ t, s.memWrite .word addr v = some t ∧ t.memRead .word addr = some v

/-- For every state with a canonical memory, A in bounds for a byte and B in bounds for a word with B <= A <= B + 3: after a byte
store of v at A, the word at B has the low byte of v as bits 8(A-B)+7:8(A-B) and its other three bytes as before, and the
byte at A is the low byte of v. The canonical form is how this model lists memory (DESIGN CHOICE, log entry 20). Rule R51. -/
def Obligations.ByteStoreThenWordLoad : Prop :=
  ∀ (s : State) (a b v : Word), s.dmem.wf → a.toNat + 1 ≤ s.cfg.dmemSize → b.toNat + 4 ≤ s.cfg.dmemSize →
    b.toNat ≤ a.toNat → a.toNat ≤ b.toNat + 3 →
    ∃ t before after, s.memWrite .byte a v = some t ∧ s.memRead .word b = some before ∧
      t.memRead .word b = some after ∧ t.memRead .byte a = some (v &&& 0xFF#32) ∧
      after.extractLsb' (8 * (a.toNat - b.toNat)) 8 = v.extractLsb' 0 8 ∧
      ∀ k < 4, k ≠ a.toNat - b.toNat → after.extractLsb' (8 * k) 8 = before.extractLsb' (8 * k) 8

/-- For all words a and b: OR and XOR bit by bit; ADD is the sum of the unsigned values modulo 2^32 and the signed sum reduced to
32 bits; SUB is the difference modulo 2^32, equals a + not b + 1, and is 0 exactly when a = b; SRA by n = b mod 32 has bit i
equal to bit i + n of a where i + n <= 31 and to bit 31 of a above. Rule R151, R152, R153, R154, R155. -/
def Obligations.AluComputesTheStatedResults : Prop :=
  ∀ a b : Word,
    (∀ i < 32, (alu a b .or).getLsbD i = (a.getLsbD i || b.getLsbD i)) ∧
    ((alu a b .add).toNat = (a.toNat + b.toNat) % 2 ^ 32 ∧ alu a b .add = BitVec.ofInt 32 (a.toInt + b.toInt)) ∧
    (((alu a b .sub).toNat : Int) = ((a.toNat : Int) - b.toNat) % 2 ^ 32 ∧ alu a b .sub = a + ~~~b + 1#32 ∧
      (alu a b .sub = 0#32 ↔ a = b)) ∧
    (∀ i < 32, (alu a b .xor).getLsbD i = (a.getLsbD i != b.getLsbD i)) ∧
    ∀ i < 32, (alu a b .sra).getLsbD i =
      if i + b.toNat % 32 ≤ 31 then a.getLsbD (i + b.toNat % 32) else a.getLsbD 31

/-- For every function code and func7 bit 5: the memory-address class selects ADD, the branch class SUB, and the register-op
class dispatches on func3: 0 to ADD, or SUB if func7 bit 5 is set, 4 to XOR, 5 to SRA, 6 to OR, and 1, 2, 3, 7 to ADD. Rule
R141, R142, R143, R144. -/
def Obligations.AluControlSelectsTheOperation : Prop :=
  ∀ (c : AluClass) (f : BitVec 3) (b : Bool),
    (c = .memAddr → aluControl c f b = .add) ∧ (c = .branch → aluControl c f b = .sub) ∧
    (c = .regOp → (f = 0#3 → b = false → aluControl c f b = .add) ∧ (f = 0#3 → b = true → aluControl c f b = .sub) ∧
      (f = 4#3 → aluControl c f b = .xor) ∧ (f = 5#3 → aluControl c f b = .sra) ∧
      (f = 6#3 → aluControl c f b = .or) ∧ (f = 1#3 ∨ f = 2#3 ∨ f = 3#3 ∨ f = 7#3 → aluControl c f b = .add))

/-- For every word, pc and register file: the Decoder answers nothing exactly for a word outside the seven opcodes. Otherwise rd
is bits 11:7; reg_write is off exactly for opcodes 0x23 and 0x63; mem_write is on exactly for 0x23, mem_read and mem_to_reg
exactly for 0x03, branch exactly for 0x63, jump exactly for 0x6F; alu_src_imm is off exactly for 0x33 and 0x63; the class is
BRANCH exactly for 0x63 and MEMADDR exactly for 0x03, 0x23 and 0x37; func3 is bits 14:12 for 0x13, 0x33 and 0x23; rs2_val is
the register that bits 24:20 name for 0x23; disp is disp_B for 0x63 and disp_J for 0x6F. The table is the decisions D14 and
D15 of the spec (log entry 15). Derived from 40_datapath_blocks.md section 1; 92_eei_decisions.md D14 and D15. -/
def Obligations.ControlSignalsPerOpcode : Prop :=
  ∀ (w pc : Word) (x : RegIdx → Word),
    (decoderBlock w pc x = none ↔ opcodeOf w ∉ supportedOpcodes) ∧
    ∀ d, decoderBlock w pc x = some d →
      d.rd = w.extractLsb' 7 5 ∧
      (d.ctrl.regWrite = false ↔ opcodeOf w = 0x23#7 ∨ opcodeOf w = 0x63#7) ∧
      (d.ctrl.memWrite = true ↔ opcodeOf w = 0x23#7) ∧
      (d.ctrl.memRead = true ↔ opcodeOf w = 0x03#7) ∧ d.ctrl.memToReg = d.ctrl.memRead ∧
      (d.ctrl.branch = true ↔ opcodeOf w = 0x63#7) ∧ (d.ctrl.jump = true ↔ opcodeOf w = 0x6F#7) ∧
      (d.ctrl.aluSrcImm = false ↔ opcodeOf w = 0x33#7 ∨ opcodeOf w = 0x63#7) ∧
      (d.ctrl.aluClass = .branch ↔ opcodeOf w = 0x63#7) ∧
      (d.ctrl.aluClass = .memAddr ↔ opcodeOf w = 0x03#7 ∨ opcodeOf w = 0x23#7 ∨ opcodeOf w = 0x37#7) ∧
      (opcodeOf w = 0x13#7 ∨ opcodeOf w = 0x33#7 ∨ opcodeOf w = 0x23#7 → d.ctrl.func3 = w.extractLsb' 12 3) ∧
      (opcodeOf w = 0x23#7 → d.ctrl.rs2Val = x (w.extractLsb' 20 5)) ∧
      (opcodeOf w = 0x63#7 → d.ctrl.disp = dispB (dispBOf w)) ∧
      (opcodeOf w = 0x6F#7 → d.ctrl.disp = dispJ (dispJOf w))

/-- For every state, step answers the next state that the block-level machine computes: the halt test, fetch, the Decoder with
its control signals, the ALU Control Generator and the ALU, the memory phase, write-back and the clock tick, written from the
rules of the blocks and phases. Derived from 40_datapath_blocks.md sections 1 to 3; 41_cycle_sequencer.md sections 1 to 3. -/
def Obligations.StepIsTheBlockLevelStep : Prop :=
  ∀ s : State, step s = .next (blockStep s)

/-- In a running state whose pc is a multiple of 4 below max_address, if word pc / 4 of the Instruction Sequence decodes to an
instruction, the step is that instruction at that state; nothing is added around it. Derived from 41_cycle_sequencer.md
sections 1 and 3. -/
def Obligations.StepRunsTheDecodedInstruction : Prop :=
  ∀ (s : State) (w : Word) (i : Instr), s.status = .running → s.pc.toNat < 4 * s.imem.length → s.pc.toNat % 4 = 0 →
    s.imem[s.pc.toNat / 4]? = some w → decode w = .ok i → step s = exec i s

/-- For every state and every word that decodes to an instruction, the step of the state with that word placed at its fetch
address is that instruction; placing it leaves the registers, the Data Memory and the configuration as they are, and every
other word of the program. How a program is loaded is the choice of this model (log entries 3 and 22). Derived from
70_reset_and_hazards.md section 2. -/
def Obligations.LoadedWordRunsNext : Prop :=
  ∀ (s : State) (w : Word) (i : Instr), decode w = .ok i →
    step (s.withFetchWord 32 w.toNat) = exec i (s.withFetchWord 32 w.toNat) ∧
    (s.withFetchWord 32 w.toNat).regs = s.regs ∧ (s.withFetchWord 32 w.toNat).dmem = s.dmem ∧
    (s.withFetchWord 32 w.toNat).cfg = s.cfg ∧
    ∀ k, k < s.imem.length → k ≠ s.pc.toNat / 4 → (s.withFetchWord 32 w.toNat).imem[k]? = s.imem[k]?

/-- Every word that matches 0x00006013 under 0x0000707F decodes to ORI with rd, rs1 and the 12 bits 31:20. In every state ORI
answers a next state: rd is x[rs1] or the sign-extended immediate (nothing if rd is x0), pc is pc + 4, and every other
register, every byte of memory, the program, the status and the configuration are as before. Rule R190. -/
def Obligations.OriOrsTheSignExtendedImmediate : Prop :=
  (∀ w : Word, w &&& 0x0000707F#32 = 0x00006013#32 →
    decode w = .ok (.ori (w.extractLsb' 7 5) (w.extractLsb' 15 5) (w.extractLsb' 20 12))) ∧
  ∀ (rd rs1 : RegIdx) (imm : BitVec 12) (s : State),
    ∃ t, exec (.ori rd rs1 imm) s = .next t ∧
      WritesRegister s t rd (s.reg rs1 ||| imm.signExtend 32) (s.pc + 4#32)

/-- Every word that matches 0x00005013 under 0x0000707F decodes to SRAI with rd, rs1, the shift amount of bits 24:20 and the
ignored bits 31:25. In every state SRAI answers a next state, the same for every value of the ignored bits: rd is the word
whose signed value is the floor of the signed value of x[rs1] over 2^shamt (nothing if rd is x0), pc is pc + 4, all else is
as before. Rule R191. -/
def Obligations.SraiShiftsArithmetically : Prop :=
  (∀ w : Word, w &&& 0x0000707F#32 = 0x00005013#32 →
    decode w = .ok (.srai (w.extractLsb' 7 5) (w.extractLsb' 15 5) (w.extractLsb' 20 5) (w.extractLsb' 25 7))) ∧
  ∀ (rd rs1 : RegIdx) (shamt : BitVec 5) (upper7 : BitVec 7) (s : State),
    ∃ t v, exec (.srai rd rs1 shamt upper7) s = .next t ∧
      (v : Word).toInt = (s.reg rs1).toInt / 2 ^ shamt.toNat ∧ WritesRegister s t rd v (s.pc + 4#32)

/-- In every state the four unnamed add rows of opcode 0x13 (func3 0 with bit 30 clear, func3 1, func3 2 or 3, func3 7) answer a
next state: rd is x[rs1] plus the sign-extended immediate modulo 2^32 (nothing if rd is x0), pc is pc + 4, all else is as
before. That these words execute is the decision D3 of the spec (log entry 14). Derived from 42_op_imm.md Unnamed encodings;
92_eei_decisions.md D3. -/
def Obligations.UnnamedOpImmAddsTheImmediate : Prop :=
  ∀ (i : Instr) (rd rs1 : RegIdx) (imm : BitVec 12) (func3 : BitVec 3) (s : State),
    i = .opimmAdd rd rs1 imm ∨ i = .opimmAddF1 rd rs1 imm ∨ i = .opimmAddF23 rd rs1 imm func3 ∨
      i = .opimmAddF7 rd rs1 imm →
    ∃ t, exec i s = .next t ∧ WritesRegister s t rd (s.reg rs1 + imm.signExtend 32) (s.pc + 4#32)

/-- In every state the row func3 0 with bit 30 set answers a next state in which rd is x[rs1] minus the whole sign-extended
immediate modulo 2^32, and the row func3 4 one in which rd is x[rs1] xor the sign-extended immediate (nothing if rd is x0);
pc is pc + 4, all else is as before. That these words execute is the decision D3 of the spec (log entry 14). Derived from
42_op_imm.md Unnamed encodings; 92_eei_decisions.md D3. -/
def Obligations.UnnamedOpImmSubtractsOrXors : Prop :=
  ∀ (rd rs1 : RegIdx) (imm : BitVec 12) (s : State),
    (∃ t, exec (.opimmSub rd rs1 imm) s = .next t ∧
      WritesRegister s t rd (s.reg rs1 - imm.signExtend 32) (s.pc + 4#32)) ∧
    ∃ t, exec (.opimmXor rd rs1 imm) s = .next t ∧
      WritesRegister s t rd (s.reg rs1 ^^^ imm.signExtend 32) (s.pc + 4#32)

/-- Words matching 0x00000033 and 0x40000033 under 0x4000707F and 0x00004033 under 0x0000707F decode to ADD, SUB and XOR with rd,
rs1, rs2 and func7. In every state each answers a next state, the same for every value of the ignored bits: rd is x[rs1] +
x[rs2], x[rs1] - x[rs2] modulo 2^32, or x[rs1] xor x[rs2] (nothing if rd is x0), pc is pc + 4, all else is as before. Rule
R200, R201, R202. -/
def Obligations.AddSubXorOfTwoRegisters : Prop :=
  (∀ w : Word, w &&& 0x4000707F#32 = 0x00000033#32 →
    decode w = .ok (.add (w.extractLsb' 7 5) (w.extractLsb' 15 5) (w.extractLsb' 20 5) (w.extractLsb' 25 7))) ∧
  (∀ w : Word, w &&& 0x4000707F#32 = 0x40000033#32 →
    decode w = .ok (.sub (w.extractLsb' 7 5) (w.extractLsb' 15 5) (w.extractLsb' 20 5) (w.extractLsb' 25 7))) ∧
  (∀ w : Word, w &&& 0x0000707F#32 = 0x00004033#32 →
    decode w = .ok (.xor (w.extractLsb' 7 5) (w.extractLsb' 15 5) (w.extractLsb' 20 5) (w.extractLsb' 25 7))) ∧
  ∀ (rd rs1 rs2 : RegIdx) (func7 : BitVec 7) (s : State),
    (∃ t, exec (.add rd rs1 rs2 func7) s = .next t ∧ WritesRegister s t rd (s.reg rs1 + s.reg rs2) (s.pc + 4#32)) ∧
    (∃ t, exec (.sub rd rs1 rs2 func7) s = .next t ∧ WritesRegister s t rd (s.reg rs1 - s.reg rs2) (s.pc + 4#32)) ∧
    ∃ t, exec (.xor rd rs1 rs2 func7) s = .next t ∧ WritesRegister s t rd (s.reg rs1 ^^^ s.reg rs2) (s.pc + 4#32)

/-- In every state each answers a next state, whatever func7 is: func3 5 puts into rd the word whose signed value is the floor of
that of x[rs1] over 2^(x[rs2] mod 32), func3 6 x[rs1] or x[rs2], func3 1, 2, 3 and 7 x[rs1] + x[rs2] modulo 2^32 (nothing if
rd is x0); pc is pc + 4, all else is as before. That these words execute is the decision D3 of the spec (log entry 14).
Derived from 43_op_reg.md Unnamed encodings; 92_eei_decisions.md D3. -/
def Obligations.UnnamedOpRegResults : Prop :=
  ∀ (rd rs1 rs2 : RegIdx) (func7 : BitVec 7) (func3 : BitVec 3) (s : State),
    (∃ t v, exec (.opSra rd rs1 rs2 func7) s = .next t ∧
      (v : Word).toInt = (s.reg rs1).toInt / 2 ^ ((s.reg rs2).toNat % 32) ∧ WritesRegister s t rd v (s.pc + 4#32)) ∧
    (∃ t, exec (.opOr rd rs1 rs2 func7) s = .next t ∧
      WritesRegister s t rd (s.reg rs1 ||| s.reg rs2) (s.pc + 4#32)) ∧
    ∀ i : Instr, i = .opAddF1 rd rs1 rs2 func7 ∨ i = .opAddF23 rd rs1 rs2 func7 func3 ∨ i = .opAddF7 rd rs1 rs2 func7 →
      ∃ t, exec i s = .next t ∧ WritesRegister s t rd (s.reg rs1 + s.reg rs2) (s.pc + 4#32)

/-- Every word w that matches 0x00000037 under 0x0000007F decodes to LUI with rd and the 20 bits 31:12, and at every state LUI
answers a next state in which rd is w and 0xFFFFF000, that is bits 31:12 over twelve zeros (nothing if rd is x0), pc is pc +
4, and all else is as before. The same holds of LUI with any rd and immediate. Rule R230. -/
def Obligations.LuiLoadsTheUpperImmediate : Prop :=
  (∀ w : Word, w &&& 0x0000007F#32 = 0x00000037#32 →
    decode w = .ok (.lui (w.extractLsb' 7 5) (w.extractLsb' 12 20)) ∧
    ∀ s : State, ∃ t, exec (.lui (w.extractLsb' 7 5) (w.extractLsb' 12 20)) s = .next t ∧
      WritesRegister s t (w.extractLsb' 7 5) (w &&& 0xFFFFF000#32) (s.pc + 4#32)) ∧
  ∀ (rd : RegIdx) (imm : BitVec 20) (s : State),
    ∃ t, exec (.lui rd imm) s = .next t ∧ WritesRegister s t rd (imm ++ 0#12) (s.pc + 4#32)

/-- In every state, if A = x[rs1] + the sign-extended immediate modulo 2^32 has A + 4 <= DMEM_SIZE, each of the five loads
answers a next state in which rd is the little-endian word of bytes A to A + 3 (nothing if rd is x0), pc is pc + 4, and all
else is as before, all of memory included. That LB is a word load is the decision D4 of the spec and that the unnamed words
execute is D3 (log entries 11 and 14). Derived from 44_load.md; 90_conflicts.md C1; 92_eei_decisions.md D2 to D4. -/
def Obligations.LoadsReadTheWordInBounds : Prop :=
  ∀ (i : Instr) (rd rs1 : RegIdx) (imm : BitVec 12) (func3 : BitVec 3) (s : State),
    i = .lb rd rs1 imm ∨ i = .lw rd rs1 imm ∨ i = .loadF1 rd rs1 imm ∨ i = .loadF3 rd rs1 imm ∨
      i = .loadF47 rd rs1 imm func3 →
    (s.reg rs1 + imm.signExtend 32).toNat + 4 ≤ s.cfg.dmemSize →
    ∃ t v, exec i s = .next t ∧ WritesRegister s t rd v (s.pc + 4#32) ∧
      ∀ k < 4, (v : Word).extractLsb' (8 * k) 8 = s.dmem.read ((s.reg rs1 + imm.signExtend 32).toNat + k)

/-- In every state, if A = x[rs1] + the sign-extended immediate modulo 2^32 has A + 4 > DMEM_SIZE, each of the five loads,
whatever rd is, answers the state whose status is Faulted(MemoryOutOfBounds, pc, A) and which is as before in all else. The
fault is the decision D2 of the spec, the word bound of LB is D4 (log entries 10 and 11). Derived from 44_load.md;
60_exceptions.md section 1; 92_eei_decisions.md D2 to D4. -/
def Obligations.LoadsOutOfBoundsFault : Prop :=
  ∀ (i : Instr) (rd rs1 : RegIdx) (imm : BitVec 12) (func3 : BitVec 3) (s : State),
    i = .lb rd rs1 imm ∨ i = .lw rd rs1 imm ∨ i = .loadF1 rd rs1 imm ∨ i = .loadF3 rd rs1 imm ∨
      i = .loadF47 rd rs1 imm func3 →
    s.cfg.dmemSize < (s.reg rs1 + imm.signExtend 32).toNat + 4 →
    ∃ t, exec i s = .next t ∧ RaisesFault s t .memoryOutOfBounds (s.reg rs1 + imm.signExtend 32)

/-- In every state with a canonical memory, if A = x[rs1] + the sign-extended immediate modulo 2^32 is below DMEM_SIZE, SB
answers a next state in which byte A is bits 7:0 of x[rs2], every other byte and every register is as before, pc is pc + 4,
and the program, status and configuration are as before. That func3 = 0 means a byte is the decision D5 of the spec (log
entry 12). The canonical form is how this model lists memory (DESIGN CHOICE, log entry 20). Derived from 45_store.md;
92_eei_decisions.md D2 and D5. -/
def Obligations.SbStoresOneByte : Prop :=
  ∀ (rs1 rs2 : RegIdx) (imm : BitVec 12) (s : State), s.dmem.wf →
    (effectiveAddress (s.reg rs1) (immS imm)).toNat + 1 ≤ s.cfg.dmemSize →
    effectiveAddress (s.reg rs1) (immS imm) = s.reg rs1 + imm.signExtend 32 ∧
    ∃ t, exec (.sb rs1 rs2 imm) s = .next t ∧ StoresAt s t .byte (effectiveAddress (s.reg rs1) (immS imm)) ∧
      t.dmem.read (effectiveAddress (s.reg rs1) (immS imm)).toNat = (s.reg rs2).extractLsb' 0 8

/-- In every state with a canonical memory, if A = x[rs1] + the sign-extended immediate modulo 2^32 has A + 4 <= DMEM_SIZE, each
of the four word stores answers a next state in which byte A + k is bits 8k+7:8k of x[rs2] for k = 0 .. 3, every other byte
and every register is as before, pc is pc + 4, and the program, status and configuration are as before. That every func3
other than 0 means a word is the decision D5 of the spec, that the unnamed words execute D3 (log entries 12 and 14). The
canonical form is how this model lists memory (DESIGN CHOICE, log entry 20). Derived from 45_store.md; 92_eei_decisions.md
D2, D3 and D5. -/
def Obligations.WordStoresStoreFourBytes : Prop :=
  ∀ (i : Instr) (rs1 rs2 : RegIdx) (imm : BitVec 12) (func3 : BitVec 3) (s : State),
    i = .sw rs1 rs2 imm ∨ i = .storeF1 rs1 rs2 imm ∨ i = .storeF3 rs1 rs2 imm ∨ i = .storeF47 rs1 rs2 imm func3 →
    s.dmem.wf → (effectiveAddress (s.reg rs1) (immS imm)).toNat + 4 ≤ s.cfg.dmemSize →
    effectiveAddress (s.reg rs1) (immS imm) = s.reg rs1 + imm.signExtend 32 ∧
    ∃ t, exec i s = .next t ∧ StoresAt s t .word (effectiveAddress (s.reg rs1) (immS imm)) ∧
      ∀ k < 4, t.dmem.read ((effectiveAddress (s.reg rs1) (immS imm)).toNat + k) = (s.reg rs2).extractLsb' (8 * k) 8

/-- In every state, with A = x[rs1] + the sign-extended immediate modulo 2^32: SB with A + 1 > DMEM_SIZE, and SW or an unnamed
store with A + 4 > DMEM_SIZE, answers the state whose status is Faulted(MemoryOutOfBounds, pc, A) and which is as before in
all else; no byte is written, not even one that would fit. The fault is the decision D2 of the spec, the widths D5 (log
entries 10 and 12). Derived from 45_store.md; 60_exceptions.md section 1; 92_eei_decisions.md D2, D3 and D5. -/
def Obligations.StoresOutOfBoundsFault : Prop :=
  ∀ (i : Instr) (rs1 rs2 : RegIdx) (imm : BitVec 12) (func3 : BitVec 3) (s : State),
    (i = .sb rs1 rs2 imm ∧ s.cfg.dmemSize < (s.reg rs1 + imm.signExtend 32).toNat + 1) ∨
    ((i = .sw rs1 rs2 imm ∨ i = .storeF1 rs1 rs2 imm ∨ i = .storeF3 rs1 rs2 imm ∨ i = .storeF47 rs1 rs2 imm func3) ∧
      s.cfg.dmemSize < (s.reg rs1 + imm.signExtend 32).toNat + 4) →
    ∃ t, exec i s = .next t ∧ RaisesFault s t .memoryOutOfBounds (s.reg rs1 + imm.signExtend 32)

/-- In every state BEQ and the three unnamed branch rows answer a next state whose pc is pc + the sign-extended displacement if
x[rs1] = x[rs2] and pc + 4 otherwise, modulo 2^32; every register, every byte of memory, the program, the status and the
configuration are as before. That the unnamed words execute is the decision D3 of the spec (log entry 14). Derived from
47_branch.md; 92_eei_decisions.md D3. -/
def Obligations.BranchesGoWhereStatedIfEqual : Prop :=
  ∀ (i : Instr) (rs1 rs2 : RegIdx) (disp : BitVec 13) (func3 : BitVec 3) (s : State),
    i = .beq rs1 rs2 disp ∨ i = .branchF1 rs1 rs2 disp ∨ i = .branchF23 rs1 rs2 disp func3 ∨
      i = .branchF47 rs1 rs2 disp func3 →
    ∃ t, exec i s = .next t ∧
      MovesPcOnly s t (if s.reg rs1 = s.reg rs2 then s.pc + disp.signExtend 32 else s.pc + 4#32)

/-- In every state JAL answers a next state in which rd is pc + 4 (nothing if rd is x0) and pc is pc + the sign-extended
displacement, both modulo 2^32 and both from the pc of the JAL; all else is as before. A target that is no multiple of 4 does
not stop the JAL. Derived from 48_jump.md. -/
def Obligations.JalLinksAndJumps : Prop :=
  ∀ (rd : RegIdx) (disp : BitVec 21) (s : State),
    ∃ t, exec (.jal rd disp) s = .next t ∧ WritesRegister s t rd (s.pc + 4#32) (s.pc + disp.signExtend 32)

/-- A word with opcode 0x03 decodes to an instruction that does in every state what LW with the same rd, rs1 and immediate does,
whatever bits 14:12 are; a word with opcode 0x63 decodes to one that does in every state what BEQ with the same operands
does, that is branch if equal. Rule R101, R103. -/
def Obligations.LoadsAndBranchesIgnoreTheFunctionCode : Prop :=
  (∀ w : Word, opcodeOf w = 0x03#7 →
    ∃ i, decode w = .ok i ∧ ∀ s, exec i s = exec (.lw (w.extractLsb' 7 5) (w.extractLsb' 15 5) (w.extractLsb' 20 12)) s) ∧
  ∀ w : Word, opcodeOf w = 0x63#7 →
    ∃ i, decode w = .ok i ∧ ∀ s, exec i s = exec (.beq (w.extractLsb' 15 5) (w.extractLsb' 20 5) (dispBOf w)) s ∧
      exec i s = .next (s.setPc (if s.reg (w.extractLsb' 15 5) = s.reg (w.extractLsb' 20 5)
        then s.pc + dispB (dispBOf w) else s.pc + 4#32))

/-- Two words of a supported opcode that agree on every bit outside those the spec lists as ignored for the first (bits 31:25 of
opcode 0x13 with func3 5; of opcode 0x33 bit 31 and bits 29:25 if func3 is 0 and bits 31:25 otherwise; bits 14:12 of opcodes
0x03 and 0x63; bits 14:12 of opcode 0x23 where neither word has func3 0) decode to instructions that do the same in every
state. Derived from 30_encoding.md section 4. -/
def Obligations.IgnoredBitsChangeNothing : Prop :=
  ∀ w v : Word, opcodeOf w ∈ supportedOpcodes → (w ^^^ v) &&& ~~~ ignoredBits w = 0#32 →
    (opcodeOf w = opcodeStore → func3Of w ≠ 0#3 → func3Of v ≠ 0#3) →
    ∃ i j, decode w = .ok i ∧ decode v = .ok j ∧ ∀ s, exec i s = exec j s

/-- For every rd other than x0, every 20-bit hi and every 12-bit lo with bit 11 clear: ORI of lo into rd after LUI of hi into rd
leaves hi over lo in rd, every other register as before, and pc two instructions on. Derived from 30_encoding.md section 5. -/
def Obligations.LuiThenOriBuildsAConstant : Prop :=
  ∀ (rd : RegIdx) (hi : BitVec 20) (lo : BitVec 12) (s : State), rd ≠ 0#5 → lo.getLsbD 11 = false →
    ∃ t u, exec (.lui rd hi) s = .next t ∧ exec (.ori rd rd lo) t = .next u ∧
      WritesRegister s u rd (hi ++ lo) (s.pc + 8#32)

/-- After reset with a program: every byte of memory reads 0 (the statement of the source), every register reads 0 and pc is 0
(the decision D7 of the spec, log entry 2), the program is the loaded one, the machine is running and the configuration is
the given one; State.reset is the reset with no program in the 4096-byte sizing (log entry 3). Derived from 10_state.md
section 7; 70_reset_and_hazards.md section 1; 92_eei_decisions.md D7. -/
def Obligations.ResetStateIsAsStated : Prop :=
  (∀ (c : Config) (program : List Word),
    (∀ a, (State.resetWith c program).dmem.read a = 0#8) ∧ (∀ r, (State.resetWith c program).reg r = 0#32) ∧
    (State.resetWith c program).pc = 0#32 ∧ (State.resetWith c program).imem = program ∧
    (State.resetWith c program).status = .running ∧ (State.resetWith c program).cfg = c) ∧
  State.reset = State.resetWith Config.reference [] ∧ Config.reference.dmemSize = 4096

/-- For every valid memory size and every program of at most 2^30 - 1 words, the invariant (canonical memory inside DMEM_SIZE,
slot 0 zero, valid sizes, halted only at or past max_address, a fault status that names its cause) holds of the state after
reset; it holds of State.reset. The canonical memory and the kept slot 0 are choices of this model (DESIGN CHOICE, log
entries 20 and 17); the sizes are the decision D11 of the spec (log entry 5), the zero registers D7 (log entry 2), the status
D13 (log entry 1). Derived from 10_state.md section 7; 00_scope.md section 4; 92_eei_decisions.md D7, D11 and D13. -/
def Obligations.InvariantHoldsAtReset : Prop :=
  (∀ (c : Config) (program : List Word), c.Valid → program.length ≤ maxProgramWords →
    (State.resetWith c program).Inv) ∧ State.reset.Inv

/-- From every state that meets the invariant, whatever the step answers meets it: the memory stays canonical and inside
DMEM_SIZE, slot 0 of the Register File stays 0, the sizes stay valid, a halted machine has pc at or past max_address, and a
faulted machine still shows the cause its status names (the kind, the pc, the recorded word). The canonical memory and the
kept slot 0 are choices of this model (DESIGN CHOICE, log entries 20 and 17). The sizes are the decision D11 of the spec (log
entry 5), the halt test D12 (log entry 7), the faults and their causes D1, D2, D8 and D13 (log entries 1, 8, 9 and 10).
Derived from 10_state.md sections 1 to 6; 20_memory.md section 3; 41_cycle_sequencer.md sections 2 and 3; 60_exceptions.md
sections 1 and 2; 92_eei_decisions.md D1, D2, D8 and D11 to D13. -/
def Obligations.EveryStepKeepsTheInvariant : Prop :=
  ∀ s t : State, s.Inv → step s = .next t → t.Inv

/-- In every state the step answers a next state, and so does every instruction in every state: no fault and no refusal of the
interface is ever answered. A fault of the hardware is a next state whose status is Faulted (DEDUCED, log entry 1). Derived
from 41_cycle_sequencer.md section 3. -/
def Obligations.EveryStepAnswersANextState : Prop :=
  (∀ s : State, ∃ t, step s = .next t) ∧ ∀ (i : Instr) (s : State), ∃ t, exec i s = .next t

/-- If a state is halted or faulted, the only state a run from it reaches is that state itself, and the step answers it. The
status component is the decision D13 of the spec (log entry 1). Derived from 41_cycle_sequencer.md section 3;
60_exceptions.md section 2; 92_eei_decisions.md D13. -/
def Obligations.StoppedStatesAreAbsorbing : Prop :=
  ∀ s : State, s.status ≠ .running → step s = .next s ∧ ∀ t, Reaches s t → t = s

/-- From a running state the step halts if and only if pc >= 4 * NINSTR, misaligned or not; it then changes the status and
nothing else. That the test is made before every cycle, the first included, is the decision D12 of the spec (log entry 7).
Derived from 41_cycle_sequencer.md section 2; 92_eei_decisions.md D12. -/
def Obligations.HaltsExactlyAtTheEndOfTheProgram : Prop :=
  ∀ s t : State, s.status = .running → step s = .next t →
    (t.status = .halted ↔ 4 * s.imem.length ≤ s.pc.toNat) ∧
    (t.status = .halted → t.pc = s.pc ∧ t.regs = s.regs ∧ t.dmem = s.dmem ∧ t.imem = s.imem ∧ t.cfg = s.cfg)

/-- If a step of a running machine answers a state whose status is Faulted(kind, p, info), then p is the pc of the faulting
instruction, every register, every byte of memory, the pc, the program and the configuration are as when the cycle began, and
every state a run reaches from there is that state. Rule R256. -/
def Obligations.AFaultChangesOnlyTheStatus : Prop :=
  ∀ (s t : State) (kind : Fault) (p info : Word), s.status = .running → step s = .next t →
    t.status = .faulted kind p info →
    p = s.pc ∧ RaisesFault s t kind info ∧ t.regs = s.regs ∧ t.dmem = s.dmem ∧ ∀ u, Reaches t u → u = t

/-- The step of a running machine ends in Faulted(kind, p, info) if and only if p is the pc, pc < max_address and: for
MisalignedPC, pc mod 4 is not 0 and info is pc; for UnsupportedOpcode, pc mod 4 = 0 and info is the fetched word, whose
opcode is outside the seven; for MemoryOutOfBounds, pc mod 4 = 0 and the fetched word is a load or store whose access at
address info is out of bounds. These faults are the decisions D1, D2, D8 and D13 of the spec (log entries 1, 8, 9 and 10).
Derived from 60_exceptions.md sections 1 and 3; 92_eei_decisions.md D1, D2, D8 and D13. -/
def Obligations.FaultsAreRaisedExactlyOnTheirCauses : Prop :=
  ∀ (s t : State) (kind : Fault) (p info : Word), s.status = .running → step s = .next t →
    (t.status = .faulted kind p info ↔
      p = s.pc ∧ s.pc.toNat < 4 * s.imem.length ∧
      match kind with
      | .misalignedPC => s.pc.toNat % 4 ≠ 0 ∧ info = s.pc
      | .unsupportedOpcode =>
        s.pc.toNat % 4 = 0 ∧ s.imem[s.pc.toNat / 4]? = some info ∧
          info.extractLsb' 0 7 ∉ [0x13#7, 0x33#7, 0x03#7, 0x23#7, 0x37#7, 0x63#7, 0x6F#7]
      | .memoryOutOfBounds =>
        s.pc.toNat % 4 = 0 ∧ ∃ w access, s.imem[s.pc.toNat / 4]? = some w ∧ s.access w = some (access, info) ∧
          s.cfg.dmemSize < info.toNat + access.bytes)

/-- In every state a run reaches, the Instruction Sequence and the configuration are those it started with, whatever was stored;
and the word fetched does not depend on the Data Memory: replacing the Data Memory changes no fetched word. That the program
and the configuration stand in the state, where a step could change them, is a choice of this model (DESIGN CHOICE, log
entries 4 and 5). Derived from 20_memory.md section 6; 10_state.md section 5; 00_scope.md section 4. -/
def Obligations.ProgramAndConfigurationNeverChange : Prop :=
  (∀ s t : State, Reaches s t → t.imem = s.imem ∧ t.cfg = s.cfg) ∧
  ∀ (s : State) (m : Memory), (s.setDmem m).fetchWord = s.fetchWord

/-- If a step changes what a byte at address a reads as, in a state with a canonical memory, the machine was running, the fetched
word has opcode 0x23, and a lies in the bytes of its access: the effective address and, if bits 14:12 are not 0, the three
after it. The canonical form is how this model lists memory (DESIGN CHOICE, log entry 20). Derived from 10_state.md section
5; 20_memory.md section 3. -/
def Obligations.OnlyStoresChangeTheDataMemory : Prop :=
  ∀ (s t : State) (a : Nat), s.dmem.wf → step s = .next t → t.dmem.read a ≠ s.dmem.read a →
    s.status = .running ∧ opcodeOf s.fetchWord = 0x23#7 ∧
    ∃ w addr, s.access s.fetchWord = some (w, addr) ∧ w = (if func3Of s.fetchWord = 0#3 then .byte else .word) ∧
      addr = s.reg (rs1Of s.fetchWord) + (immSOf s.fetchWord).signExtend 32 ∧
      addr.toNat ≤ a ∧ a < addr.toNat + w.bytes

/-- If an instruction answers a next state in which some register reads otherwise than before, that register is the destination
the table of 10_state.md gives the instruction, and it is not x0; stores and branches have none. The program and the
configuration are as before. Derived from 10_state.md section 2. -/
def Obligations.OnlyTheDestinationRegisterChanges : Prop :=
  ∀ (i : Instr) (s t : State), exec i s = .next t →
    (∀ r, t.reg r ≠ s.reg r → i.destination = some r ∧ r ≠ 0#5) ∧ t.imem = s.imem ∧ t.cfg = s.cfg

/-- Two states that agree on pc, Data Memory, configuration and the source registers the table of 10_state.md gives the
instruction end alike: with the same pc and Data Memory, and either both have completed, with the same value in the
destination register and the statuses they had, or both have raised MemoryOutOfBounds with the same address. Derived from
10_state.md section 2. -/
def Obligations.ResultsDependOnlyOnTheSourceRegisters : Prop :=
  ∀ (i : Instr) (s s' t t' : State), s.pc = s'.pc → s.dmem = s'.dmem → s.cfg = s'.cfg →
    (∀ r ∈ i.sources, s.reg r = s'.reg r) → exec i s = .next t → exec i s' = .next t' →
    t.pc = t'.pc ∧ t.dmem = t'.dmem ∧
    ((t.status = s.status ∧ t'.status = s'.status ∧ ∀ rd, i.destination = some rd → t.reg rd = t'.reg rd) ∨
      ∃ info, RaisesFault s t .memoryOutOfBounds info ∧ RaisesFault s' t' .memoryOutOfBounds info)

/-- If a step of a running machine answers a running state, the fetched word w decides the pc: unless its opcode is 0x63 or 0x6F
it is pc + 4; for opcode 0x63 it is pc + disp_B if x[rs1] - x[rs2] = 0 and pc + 4 otherwise; for opcode 0x6F it is pc +
disp_J. Rule R28. -/
def Obligations.NextPcOfEveryInstruction : Prop :=
  ∀ s t : State, s.status = .running → step s = .next t → t.status = .running →
    (opcodeOf s.fetchWord ≠ 0x63#7 → opcodeOf s.fetchWord ≠ 0x6F#7 → t.pc = s.pc + 4#32) ∧
    (opcodeOf s.fetchWord = 0x63#7 →
      t.pc = if s.reg (rs1Of s.fetchWord) - s.reg (rs2Of s.fetchWord) = 0#32 then s.pc + dispB (dispBOf s.fetchWord)
        else s.pc + 4#32) ∧
    (opcodeOf s.fetchWord = 0x6F#7 → t.pc = s.pc + dispJ (dispJOf s.fetchWord))

/-- In a state whose program fits (at most 2^30 - 1 words) and whose pc is a multiple of 4 below max_address, pc + 4 as a word is
pc + 4 as a number, at most max_address and so at most 2^32 - 4. The bound on the length is the decision D11 of the spec (log
entry 5), the word addition D9 (log entry 18). Derived from 10_state.md section 3; 92_eei_decisions.md D9 and D11. -/
def Obligations.SequentialAdvanceNeverWraps : Prop :=
  ∀ s : State, s.imem.length ≤ maxProgramWords → s.pc.toNat < 4 * s.imem.length → s.pc.toNat % 4 = 0 →
    (s.pc + 4#32).toNat = s.pc.toNat + 4 ∧ s.pc.toNat + 4 ≤ 4 * s.imem.length ∧ s.pc.toNat + 4 ≤ 2 ^ 32 - 4

/-- If the word fetched by a running machine, with pc a multiple of 4 below max_address, is a branch or a JAL, then whatever its
displacement d the step answers a running state: a JAL has written its link and gone to pc + d, a branch has gone to pc + d
if its operands are equal and to pc + 4 otherwise, and all else is as before. If a running machine with pc a multiple of 4
steps to a running state whose pc is not, the fetched word was a branch (opcode 0x63) or a JAL (0x6F); and if that pc is
below max_address the next step raises MisalignedPC there and changes nothing else. The fault is the decision D8 of the spec
(log entry 8), that the unnamed branch words execute D3 (log entry 14), that the targets wrap D9 (log entry 18). Derived from
10_state.md section 3; 47_branch.md; 48_jump.md; 60_exceptions.md section 1; 92_eei_decisions.md D3, D8 and D9. -/
def Obligations.AMisalignedTargetFaultsAtTheNextFetch : Prop :=
  (∀ (s : State) (d : Word), s.status = .running → s.pc.toNat < 4 * s.imem.length → s.pc.toNat % 4 = 0 →
    displacementOf s.fetchWord = some d →
    ∃ t, step s = .next t ∧ t.status = .running ∧
      (opcodeOf s.fetchWord = 0x6F#7 → WritesRegister s t (rdOf s.fetchWord) (s.pc + 4#32) (s.pc + d)) ∧
      (opcodeOf s.fetchWord = 0x63#7 → MovesPcOnly s t
        (if s.reg (rs1Of s.fetchWord) = s.reg (rs2Of s.fetchWord) then s.pc + d else s.pc + 4#32))) ∧
  ∀ s t : State, s.status = .running → s.pc.toNat % 4 = 0 → step s = .next t → t.status = .running → t.pc.toNat % 4 ≠ 0 →
    (opcodeOf s.fetchWord = 0x63#7 ∨ opcodeOf s.fetchWord = 0x6F#7) ∧
    (t.pc.toNat < 4 * t.imem.length → ∃ u, step t = .next u ∧ RaisesFault t u .misalignedPC t.pc)

/-- From a running state whose pc is a multiple of 4 and whose program has only branch and jump displacements that are multiples
of 4, every state a run reaches has a pc that is a multiple of 4 and is not faulted with MisalignedPC. Derived from
10_state.md section 3; 95_test_vectors.md section 8. -/
def Obligations.AlignedProgramsNeverFaultOnFetch : Prop :=
  ∀ s t : State, s.status = .running → s.pc.toNat % 4 = 0 → AlignedProgram s.imem → Reaches s t →
    t.pc.toNat % 4 = 0 ∧ ∀ p info, t.status ≠ .faulted .misalignedPC p info

/-- From a running state whose pc is a multiple of 4 and whose program fits and has no branch and no jump, NINSTR + 1 steps of
the machine lead to a state that is halted or faulted. (The halt test before the first cycle is the decision D12 of the spec,
log entry 7.) Derived from 41_cycle_sequencer.md section 2; 70_reset_and_hazards.md section 4. -/
def Obligations.StraightLineProgramsStop : Prop :=
  ∀ s : State, s.status = .running → s.pc.toNat % 4 = 0 → s.imem.length ≤ maxProgramWords → StraightLine s.imem →
    ∃ t, Host.Core.run Sys2Proof.core (s.imem.length + 1) s = .next t ∧ t.status ≠ .running
end

