-- ==== Sys2Proof/Laws/Encoding.lean ====
section
/-! SUPPORT. The fields of the word each format's encoder builds. -/

namespace Sys2Proof

/-- A field that lies wholly in the low part of a concatenation. -/
theorem field_low {n m : Nat} (hi : BitVec n) (lo : BitVec m) (start len : Nat) (h : start + len ≤ m) :
    (hi ++ lo).extractLsb' start len = lo.extractLsb' start len :=
  BitVec.extractLsb'_append_eq_of_add_le h

/-- A field that lies wholly in the high part of a concatenation. -/
theorem field_high {n m : Nat} (hi : BitVec n) (lo : BitVec m) (start len : Nat) (h : m ≤ start) :
    (hi ++ lo).extractLsb' start len = hi.extractLsb' (start - m) len :=
  BitVec.extractLsb'_append_eq_of_le h

/-- A whole value as a field of itself. -/
theorem field_self {n : Nat} (v : BitVec n) : v.extractLsb' 0 n = v := BitVec.extractLsb'_eq_self

section R
variable (f7 : BitVec 7) (rs2 rs1 : RegIdx) (f3 : BitVec 3) (rd : RegIdx) (op : BitVec 7)

@[simp] theorem encodeR_opcode : opcodeOf (encodeR f7 rs2 rs1 f3 rd op) = op := by
  simp only [opcodeOf, encodeR]; rw [field_low _ _ _ _ (by decide), field_self]
@[simp] theorem encodeR_rd : rdOf (encodeR f7 rs2 rs1 f3 rd op) = rd := by
  simp only [rdOf, encodeR]; rw [field_high _ _ _ _ (by decide), field_low _ _ _ _ (by decide), field_self]
@[simp] theorem encodeR_func3 : func3Of (encodeR f7 rs2 rs1 f3 rd op) = f3 := by
  simp only [func3Of, encodeR]
  rw [field_high _ _ _ _ (by decide), field_high _ _ _ _ (by decide), field_low _ _ _ _ (by decide), field_self]
@[simp] theorem encodeR_rs1 : rs1Of (encodeR f7 rs2 rs1 f3 rd op) = rs1 := by
  simp only [rs1Of, encodeR]
  rw [field_high _ _ _ _ (by decide), field_high _ _ _ _ (by decide), field_high _ _ _ _ (by decide),
    field_low _ _ _ _ (by decide), field_self]
@[simp] theorem encodeR_rs2 : rs2Of (encodeR f7 rs2 rs1 f3 rd op) = rs2 := by
  simp only [rs2Of, encodeR]
  rw [field_high _ _ _ _ (by decide), field_high _ _ _ _ (by decide), field_high _ _ _ _ (by decide),
    field_high _ _ _ _ (by decide), field_low _ _ _ _ (by decide), field_self]
@[simp] theorem encodeR_shamt : shamtOf (encodeR f7 rs2 rs1 f3 rd op) = rs2 := encodeR_rs2 ..
@[simp] theorem encodeR_func7 : func7Of (encodeR f7 rs2 rs1 f3 rd op) = f7 := by
  simp only [func7Of, encodeR]
  rw [field_high _ _ _ _ (by decide), field_high _ _ _ _ (by decide), field_high _ _ _ _ (by decide),
    field_high _ _ _ _ (by decide), field_high _ _ _ _ (by decide), field_self]

end R

/-- Word bit 30 is bit 5 of `func7`. -/
theorem func7b5Of_eq_func7 (w : Word) : func7b5Of w = (func7Of w).getLsbD 5 := by
  simp [func7b5Of, func7Of]

/-- Word bit 30 is bit 10 of the I immediate. -/
theorem func7b5Of_eq_immI (w : Word) : func7b5Of w = (immIOf w).getLsbD 10 := by
  simp [func7b5Of, immIOf]

section I
variable (imm : BitVec 12) (rs1 : RegIdx) (f3 : BitVec 3) (rd : RegIdx) (op : BitVec 7)

@[simp] theorem encodeI_opcode : opcodeOf (encodeI imm rs1 f3 rd op) = op := by
  simp only [opcodeOf, encodeI]; rw [field_low _ _ _ _ (by decide), field_self]
@[simp] theorem encodeI_rd : rdOf (encodeI imm rs1 f3 rd op) = rd := by
  simp only [rdOf, encodeI]; rw [field_high _ _ _ _ (by decide), field_low _ _ _ _ (by decide), field_self]
@[simp] theorem encodeI_func3 : func3Of (encodeI imm rs1 f3 rd op) = f3 := by
  simp only [func3Of, encodeI]
  rw [field_high _ _ _ _ (by decide), field_high _ _ _ _ (by decide), field_low _ _ _ _ (by decide), field_self]
@[simp] theorem encodeI_rs1 : rs1Of (encodeI imm rs1 f3 rd op) = rs1 := by
  simp only [rs1Of, encodeI]
  rw [field_high _ _ _ _ (by decide), field_high _ _ _ _ (by decide), field_high _ _ _ _ (by decide),
    field_low _ _ _ _ (by decide), field_self]
@[simp] theorem encodeI_imm : immIOf (encodeI imm rs1 f3 rd op) = imm := by
  simp only [immIOf, encodeI]
  rw [field_high _ _ _ _ (by decide), field_high _ _ _ _ (by decide), field_high _ _ _ _ (by decide),
    field_high _ _ _ _ (by decide), field_self]

end I

/-- A value cut in two and put together again. -/
theorem join_parts {n : Nat} (v : BitVec n) (k m : Nat) (h : k + m = n) :
    (v.extractLsb' k m ++ v.extractLsb' 0 k) = v.cast (by omega) := by
  subst h
  apply BitVec.eq_of_getLsbD_eq
  intro i hi
  simp only [BitVec.getLsbD_append, BitVec.getLsbD_extractLsb', BitVec.getLsbD_cast]
  split
  · simp [*]
  · have : k + (i - k) = i := by omega
    have : i - k < m := by omega
    simp [*]

section S
variable (imm : BitVec 12) (rs2 rs1 : RegIdx) (f3 : BitVec 3) (op : BitVec 7)

@[simp] theorem encodeS_opcode : opcodeOf (encodeS imm rs2 rs1 f3 op) = op := by
  simp only [opcodeOf, encodeS]; rw [field_low _ _ _ _ (by decide), field_self]
@[simp] theorem encodeS_func3 : func3Of (encodeS imm rs2 rs1 f3 op) = f3 := by
  simp only [func3Of, encodeS]
  rw [field_high _ _ _ _ (by decide), field_high _ _ _ _ (by decide), field_low _ _ _ _ (by decide), field_self]
@[simp] theorem encodeS_rs1 : rs1Of (encodeS imm rs2 rs1 f3 op) = rs1 := by
  simp only [rs1Of, encodeS]
  rw [field_high _ _ _ _ (by decide), field_high _ _ _ _ (by decide), field_high _ _ _ _ (by decide),
    field_low _ _ _ _ (by decide), field_self]
@[simp] theorem encodeS_rs2 : rs2Of (encodeS imm rs2 rs1 f3 op) = rs2 := by
  simp only [rs2Of, encodeS]
  rw [field_high _ _ _ _ (by decide), field_high _ _ _ _ (by decide), field_high _ _ _ _ (by decide),
    field_high _ _ _ _ (by decide), field_low _ _ _ _ (by decide), field_self]
@[simp] theorem encodeS_imm : immSOf (encodeS imm rs2 rs1 f3 op) = imm := by
  have hhi : (encodeS imm rs2 rs1 f3 op).extractLsb' 25 7 = imm.extractLsb' 5 7 := by
    simp only [encodeS]
    rw [field_high _ _ _ _ (by decide), field_high _ _ _ _ (by decide), field_high _ _ _ _ (by decide),
      field_high _ _ _ _ (by decide), field_high _ _ _ _ (by decide), field_self]
  have hlo : (encodeS imm rs2 rs1 f3 op).extractLsb' 7 5 = imm.extractLsb' 0 5 := by
    simp only [encodeS]
    rw [field_high _ _ _ _ (by decide), field_low _ _ _ _ (by decide), field_self]
  simp only [immSOf, hhi, hlo]
  exact join_parts imm 5 7 rfl

end S

section B
variable (disp : BitVec 13) (rs2 rs1 : RegIdx) (f3 : BitVec 3) (op : BitVec 7)

@[simp] theorem encodeB_opcode : opcodeOf (encodeB disp rs2 rs1 f3 op) = op := by
  simp only [opcodeOf, encodeB]; rw [field_low _ _ _ _ (by decide), field_self]
@[simp] theorem encodeB_func3 : func3Of (encodeB disp rs2 rs1 f3 op) = f3 := by
  simp only [func3Of, encodeB]
  rw [field_high _ _ _ _ (by decide), field_high _ _ _ _ (by decide), field_high _ _ _ _ (by decide),
    field_low _ _ _ _ (by decide), field_self]
@[simp] theorem encodeB_rs1 : rs1Of (encodeB disp rs2 rs1 f3 op) = rs1 := by
  simp only [rs1Of, encodeB]
  rw [field_high _ _ _ _ (by decide), field_high _ _ _ _ (by decide), field_high _ _ _ _ (by decide),
    field_high _ _ _ _ (by decide), field_low _ _ _ _ (by decide), field_self]
@[simp] theorem encodeB_rs2 : rs2Of (encodeB disp rs2 rs1 f3 op) = rs2 := by
  simp only [rs2Of, encodeB]
  rw [field_high _ _ _ _ (by decide), field_high _ _ _ _ (by decide), field_high _ _ _ _ (by decide),
    field_high _ _ _ _ (by decide), field_high _ _ _ _ (by decide), field_low _ _ _ _ (by decide), field_self]
/-- The scattered displacement is read back, its trailing zero included (30_encoding R93). -/
theorem encodeB_disp (h : disp.getLsbD 0 = false) : dispBOf (encodeB disp rs2 rs1 f3 op) = disp := by
  apply BitVec.eq_of_getLsbD_eq
  intro i hi
  simp only [dispBOf, encodeB, BitVec.getLsbD_append, BitVec.getLsbD_extractLsb']
  interval_cases i <;> simp [-BitVec.getLsbD_eq_getElem, h]

end B

section U
variable (imm : BitVec 20) (rd : RegIdx) (op : BitVec 7)

@[simp] theorem encodeU_opcode : opcodeOf (encodeU imm rd op) = op := by
  simp only [opcodeOf, encodeU]; rw [field_low _ _ _ _ (by decide), field_self]
@[simp] theorem encodeU_rd : rdOf (encodeU imm rd op) = rd := by
  simp only [rdOf, encodeU]; rw [field_high _ _ _ _ (by decide), field_low _ _ _ _ (by decide), field_self]
@[simp] theorem encodeU_imm : immUOf (encodeU imm rd op) = imm := by
  simp only [immUOf, encodeU]
  rw [field_high _ _ _ _ (by decide), field_high _ _ _ _ (by decide), field_self]

end U

section J
variable (disp : BitVec 21) (rd : RegIdx) (op : BitVec 7)

@[simp] theorem encodeJ_opcode : opcodeOf (encodeJ disp rd op) = op := by
  simp only [opcodeOf, encodeJ]; rw [field_low _ _ _ _ (by decide), field_self]
@[simp] theorem encodeJ_rd : rdOf (encodeJ disp rd op) = rd := by
  simp only [rdOf, encodeJ]; rw [field_high _ _ _ _ (by decide), field_low _ _ _ _ (by decide), field_self]
/-- The scattered displacement is read back, its trailing zero included (30_encoding R95). -/
theorem encodeJ_disp (h : disp.getLsbD 0 = false) : dispJOf (encodeJ disp rd op) = disp := by
  apply BitVec.eq_of_getLsbD_eq
  intro i hi
  simp only [dispJOf, encodeJ, BitVec.getLsbD_append, BitVec.getLsbD_extractLsb']
  interval_cases i <;> simp [-BitVec.getLsbD_eq_getElem, h]

end J

end Sys2Proof
end

