-- ==== Sys2Proof/Laws/State.lean ====
section
/-! SUPPORT. One lemma for each field of State under each named update. -/

namespace Sys2Proof.Machine

variable (s : State)

@[simp] theorem State.setPc_regs (p : Word) : (s.setPc p).regs = s.regs := rfl
@[simp] theorem State.setPc_pc (p : Word) : (s.setPc p).pc = p := rfl
@[simp] theorem State.setPc_dmem (p : Word) : (s.setPc p).dmem = s.dmem := rfl
@[simp] theorem State.setPc_imem (p : Word) : (s.setPc p).imem = s.imem := rfl
@[simp] theorem State.setPc_status (p : Word) : (s.setPc p).status = s.status := rfl
@[simp] theorem State.setPc_cfg (p : Word) : (s.setPc p).cfg = s.cfg := rfl

@[simp] theorem State.setDmem_regs (m : Memory) : (s.setDmem m).regs = s.regs := rfl
@[simp] theorem State.setDmem_pc (m : Memory) : (s.setDmem m).pc = s.pc := rfl
@[simp] theorem State.setDmem_dmem (m : Memory) : (s.setDmem m).dmem = m := rfl
@[simp] theorem State.setDmem_imem (m : Memory) : (s.setDmem m).imem = s.imem := rfl
@[simp] theorem State.setDmem_status (m : Memory) : (s.setDmem m).status = s.status := rfl
@[simp] theorem State.setDmem_cfg (m : Memory) : (s.setDmem m).cfg = s.cfg := rfl

@[simp] theorem State.setReg_pc (r : RegIdx) (v : Word) : (s.setReg r v).pc = s.pc := by
  unfold State.setReg; split <;> rfl
@[simp] theorem State.setReg_dmem (r : RegIdx) (v : Word) : (s.setReg r v).dmem = s.dmem := by
  unfold State.setReg; split <;> rfl
@[simp] theorem State.setReg_imem (r : RegIdx) (v : Word) : (s.setReg r v).imem = s.imem := by
  unfold State.setReg; split <;> rfl
@[simp] theorem State.setReg_status (r : RegIdx) (v : Word) : (s.setReg r v).status = s.status := by
  unfold State.setReg; split <;> rfl
@[simp] theorem State.setReg_cfg (r : RegIdx) (v : Word) : (s.setReg r v).cfg = s.cfg := by
  unfold State.setReg; split <;> rfl

@[simp] theorem State.raise_regs (k : Fault) (i : Word) : (s.raise k i).regs = s.regs := rfl
@[simp] theorem State.raise_pc (k : Fault) (i : Word) : (s.raise k i).pc = s.pc := rfl
@[simp] theorem State.raise_dmem (k : Fault) (i : Word) : (s.raise k i).dmem = s.dmem := rfl
@[simp] theorem State.raise_imem (k : Fault) (i : Word) : (s.raise k i).imem = s.imem := rfl
@[simp] theorem State.raise_status (k : Fault) (i : Word) : (s.raise k i).status = .faulted k s.pc i := rfl
@[simp] theorem State.raise_cfg (k : Fault) (i : Word) : (s.raise k i).cfg = s.cfg := rfl

@[simp] theorem State.halt_regs : s.halt.regs = s.regs := rfl
@[simp] theorem State.halt_pc : s.halt.pc = s.pc := rfl
@[simp] theorem State.halt_dmem : s.halt.dmem = s.dmem := rfl
@[simp] theorem State.halt_imem : s.halt.imem = s.imem := rfl
@[simp] theorem State.halt_status : s.halt.status = .halted := rfl
@[simp] theorem State.halt_cfg : s.halt.cfg = s.cfg := rfl

/-! Registers through the accessors depend on the register file alone. -/

@[simp] theorem State.setPc_reg (p : Word) (r : RegIdx) : (s.setPc p).reg r = s.reg r := rfl
@[simp] theorem State.setDmem_reg (m : Memory) (r : RegIdx) : (s.setDmem m).reg r = s.reg r := rfl
@[simp] theorem State.raise_reg (k : Fault) (i : Word) (r : RegIdx) : (s.raise k i).reg r = s.reg r := rfl
@[simp] theorem State.halt_reg (r : RegIdx) : s.halt.reg r = s.reg r := rfl

/-- A write to `x0` changes nothing at all. -/
@[simp] theorem State.setReg_zero (v : Word) : s.setReg 0#5 v = s := rfl

/-- Slot 0 is not written. -/
@[simp] theorem State.setReg_slotZero (r : RegIdx) (v : Word) : (s.setReg r v).regs[0] = s.regs[0] := by
  unfold State.setReg
  split
  · rfl
  · rename_i h
    have hr : r.toNat ≠ 0 := fun h0 => h (BitVec.eq_of_toNat_eq (by simpa using h0))
    simp [hr]

/-- Reading the register just written. -/
theorem State.setReg_reg_self (r : RegIdx) (v : Word) (h : r ≠ 0#5) : (s.setReg r v).reg r = v := by
  simp only [State.setReg, State.reg, h, if_false]
  exact Vector.getElem_set_self _

/-- Reading another register. -/
theorem State.setReg_reg_ne (r q : RegIdx) (v : Word) (h : q ≠ r) : (s.setReg r v).reg q = s.reg q := by
  have hn : r.toNat ≠ q.toNat := fun e => h (BitVec.eq_of_toNat_eq e.symm)
  by_cases hr : r = 0#5
  · simp [State.setReg, hr]
  · by_cases hq : q = 0#5
    · simp [State.reg, hq]
    · simp only [State.setReg, State.reg, hr, hq, if_false]
      exact Vector.getElem_set_ne _ _ hn

end Sys2Proof.Machine
end

