-- ==== Sys2Proof/Laws/Memory.lean ====
section
/-! SUPPORT. The laws of the Data Memory: read after write, the canonical form, and one lemma for each access primitive. -/

namespace Sys2Proof.Machine

theorem Memory.read_cons (a : Nat) (b : Byte) (rest : Memory) (x : Nat) (h : Memory.read rest a = Memory.unlisted) :
    Memory.read (Memory.cons a b rest) x = if x = a then b else Memory.read rest x := by
  unfold Memory.cons
  split
  · rename_i hb
    split
    · rename_i hx; rw [hx, h, hb]
    · rfl
  · simp only [Memory.read, eq_comm]

/-- An address below every listed one is not listed. -/
theorem Memory.read_of_lt (m : Memory) (a : Nat) (h : ∀ c ∈ m, a < c.1) : Memory.read m a = Memory.unlisted := by
  induction m with
  | nil => rfl
  | cons c rest ih =>
    have hc : c.1 ≠ a := Nat.ne_of_gt (h c (List.mem_cons_self ..))
    simp only [Memory.read, hc, if_false]
    exact ih fun d hd => h d (List.mem_cons_of_mem _ hd)

/-- Read after write, in a canonical memory. -/
theorem Memory.read_write (m : Memory) (a : Nat) (b : Byte) (x : Nat) (h : m.wf) :
    (m.write a b).read x = if x = a then b else m.read x := by
  induction m with
  | nil => exact Memory.read_cons a b [] x rfl
  | cons c rest ih =>
    obtain ⟨hp, hn⟩ := h
    rw [List.pairwise_cons] at hp
    have hrest : Memory.wf rest := ⟨hp.2, fun d hd => hn d (List.mem_cons_of_mem _ hd)⟩
    simp only [Memory.write]
    split
    · rename_i hlt
      exact Memory.read_cons a b _ x (Memory.read_of_lt _ a fun d hd => by
        rcases List.mem_cons.1 hd with rfl | hd
        · exact hlt
        · exact Nat.lt_trans hlt (hp.1 d hd))
    · split
      · rename_i heq
        rw [Memory.read_cons a b rest x (Memory.read_of_lt rest a fun d hd => heq ▸ hp.1 d hd)]
        simp only [Memory.read]
        split
        · rfl
        · rename_i hx; rw [if_neg (fun e => hx (by omega))]
      · simp only [Memory.read]
        split
        · rename_i hne hx; rw [if_neg (by omega)]
        · exact ih hrest

/-- What a write lists: the address written, or what was listed before. -/
theorem Memory.mem_write (m : Memory) (a : Nat) (b : Byte) (c : Host.Cell) (h : c ∈ m.write a b) :
    (c = (a, b) ∧ b ≠ Memory.unlisted) ∨ c ∈ m := by
  have hcons : ∀ rest : Memory, c ∈ Memory.cons a b rest → (c = (a, b) ∧ b ≠ Memory.unlisted) ∨ c ∈ rest := by
    intro rest hc
    unfold Memory.cons at hc
    split at hc
    · exact .inr hc
    · rename_i hb
      rcases List.mem_cons.1 hc with rfl | hc
      · exact .inl ⟨rfl, hb⟩
      · exact .inr hc
  induction m with
  | nil => exact hcons [] h
  | cons d rest ih =>
    simp only [Memory.write] at h
    split at h
    · exact hcons _ h
    · split at h
      · exact (hcons _ h).imp_right (List.mem_cons_of_mem _)
      · rcases List.mem_cons.1 h with rfl | h
        · exact .inr (List.mem_cons_self ..)
        · exact (ih h).imp_right (List.mem_cons_of_mem _)

/-- A write keeps the canonical form. -/
theorem Memory.write_wf (m : Memory) (a : Nat) (b : Byte) (h : m.wf) : (m.write a b).wf := by
  refine ⟨?_, fun c hc => ?_⟩
  · have hcons : ∀ rest : Memory, rest.Pairwise (fun c d => c.1 < d.1) → (∀ c ∈ rest, a < c.1) →
        (Memory.cons a b rest).Pairwise (fun c d => c.1 < d.1) := by
      intro rest hr hlt
      unfold Memory.cons
      split
      · exact hr
      · exact List.pairwise_cons.2 ⟨fun d hd => hlt d hd, hr⟩
    obtain ⟨hp, -⟩ := h
    induction m with
    | nil => exact hcons [] .nil (by simp)
    | cons d rest ih =>
      have hp' := List.pairwise_cons.1 hp
      simp only [Memory.write]
      split
      · rename_i hlt
        exact hcons _ hp fun c hc => by
          rcases List.mem_cons.1 hc with rfl | hc
          · exact hlt
          · exact Nat.lt_trans hlt (hp'.1 c hc)
      · split
        · rename_i heq
          exact hcons _ hp'.2 fun c hc => heq ▸ hp'.1 c hc
        · refine List.pairwise_cons.2 ⟨fun c hc => ?_, ih hp'.2⟩
          rcases Memory.mem_write _ _ _ _ hc with ⟨rfl, -⟩ | hc
          · simp only; omega
          · exact hp'.1 c hc
  · rcases Memory.mem_write _ _ _ _ hc with ⟨rfl, hb⟩ | hc
    · exact hb
    · exact h.2 c hc

theorem Memory.writeWord_wf (m : Memory) (a : Nat) (v : Word) (h : m.wf) : (m.writeWord a v).wf :=
  Memory.write_wf _ _ _ (Memory.write_wf _ _ _ (Memory.write_wf _ _ _ (Memory.write_wf _ _ _ h)))

/-- What a word write lists: one of the four addresses, or what was listed before. -/
theorem Memory.mem_writeWord (m : Memory) (a : Nat) (v : Word) (c : Host.Cell) (h : c ∈ m.writeWord a v) :
    (a ≤ c.1 ∧ c.1 < a + 4) ∨ c ∈ m := by
  unfold Memory.writeWord at h
  rcases Memory.mem_write _ _ _ _ h with ⟨rfl, -⟩ | h
  · exact .inl ⟨by simp, by simp⟩
  rcases Memory.mem_write _ _ _ _ h with ⟨rfl, -⟩ | h
  · exact .inl ⟨by simp, by simp⟩
  rcases Memory.mem_write _ _ _ _ h with ⟨rfl, -⟩ | h
  · exact .inl ⟨by simp, by simp⟩
  rcases Memory.mem_write _ _ _ _ h with ⟨rfl, -⟩ | h
  · exact .inl ⟨by simp, by simp⟩
  · exact .inr h

/-- Every byte after a word write. -/
theorem Memory.read_writeWord (m : Memory) (a : Nat) (v : Word) (x : Nat) (h : m.wf) :
    (m.writeWord a v).read x = if a ≤ x ∧ x < a + 4 then byteOfWord v (x - a) else m.read x := by
  have h1 := Memory.write_wf m a (byteOfWord v 0) h
  have h2 := Memory.write_wf _ (a + 1) (byteOfWord v 1) h1
  have h3 := Memory.write_wf _ (a + 2) (byteOfWord v 2) h2
  unfold Memory.writeWord
  rw [Memory.read_write _ _ _ _ h3, Memory.read_write _ _ _ _ h2, Memory.read_write _ _ _ _ h1,
    Memory.read_write _ _ _ _ h]
  by_cases hin : a ≤ x ∧ x < a + 4
  · rw [if_pos hin]
    obtain ⟨k, rfl⟩ := Nat.exists_eq_add_of_le hin.1
    have hk : k < 4 := by omega
    rcases k with _ | _ | _ | _ | k
    · simp
    · simp
    · simp
    · simp
    · omega
  · rw [if_neg hin, if_neg (by omega), if_neg (by omega), if_neg (by omega), if_neg (by omega)]

/-! ### The access primitives -/

theorem State.memRead_word (s : State) (addr : Word) (h : s.InBounds .word addr) :
    s.memRead .word addr = some (s.dmem.readWord addr.toNat) := by
  simp [State.memRead, h]

theorem State.memRead_none (s : State) (w : Width) (addr : Word) (h : ¬ s.InBounds w addr) :
    s.memRead w addr = none := by
  simp [State.memRead, h]

/-- What a write does, when it answers. -/
theorem State.memWrite_byte (s : State) (addr v : Word) (h : s.InBounds .byte addr) :
    s.memWrite .byte addr v = some (s.setDmem (s.dmem.write addr.toNat (byteOfWord v 0))) := by
  simp [State.memWrite, h]

theorem State.memWrite_word (s : State) (addr v : Word) (h : s.InBounds .word addr) :
    s.memWrite .word addr v = some (s.setDmem (s.dmem.writeWord addr.toNat v)) := by
  simp [State.memWrite, h]

theorem State.memWrite_none (s : State) (w : Width) (addr v : Word) (h : ¬ s.InBounds w addr) :
    s.memWrite w addr v = none := by
  simp [State.memWrite, h]

/-- All a write can do: the access is in bounds, and only the Data Memory changes, to a memory that keeps the canonical form and
lists nothing new but the bytes of the access. -/
theorem State.memWrite_cases (s t : State) (w : Width) (addr v : Word) (h : s.memWrite w addr v = some t) :
    s.InBounds w addr ∧ ∃ m, t = s.setDmem m ∧ (s.dmem.wf → m.wf) ∧
      ∀ c ∈ m, (addr.toNat ≤ c.1 ∧ c.1 < addr.toNat + w.bytes) ∨ c ∈ s.dmem := by
  by_cases hb : s.InBounds w addr
  · refine ⟨hb, ?_⟩
    cases w with
    | byte =>
      rw [State.memWrite_byte _ _ _ hb] at h
      refine ⟨_, (Option.some.inj h).symm, Memory.write_wf _ _ _, fun c hc => ?_⟩
      rcases Memory.mem_write _ _ _ _ hc with ⟨rfl, -⟩ | hc
      · exact .inl ⟨Nat.le_refl _, by simp [Width.bytes]⟩
      · exact .inr hc
    | word =>
      rw [State.memWrite_word _ _ _ hb] at h
      exact ⟨_, (Option.some.inj h).symm, Memory.writeWord_wf _ _ _, fun c hc => Memory.mem_writeWord _ _ _ _ hc⟩
  · rw [State.memWrite_none _ _ _ _ hb] at h
    cases h

end Sys2Proof.Machine
end

