-- ==== Sys2Proof/Laws/Ops.lean ====
section
/-! SUPPORT. One lemma for each shared completion: all it can do. -/

namespace Sys2Proof.Machine

variable (s : State)

theorem completeReg_eq (rd : RegIdx) (v : Word) :
    completeReg rd v s = .next ((s.setReg rd v).setPc (s.pc + 4#32)) := rfl

theorem completeLoad_inBounds (rd : RegIdx) (addr : Word) (h : s.InBounds .word addr) :
    completeLoad rd addr s = .next ((s.setReg rd (s.dmem.readWord addr.toNat)).setPc (s.pc + 4#32)) := by
  simp [completeLoad, State.memRead_word s addr h, completeReg, State.nextPc]

theorem completeLoad_outside (rd : RegIdx) (addr : Word) (h : ¬ s.InBounds .word addr) :
    completeLoad rd addr s = .next (s.raise .memoryOutOfBounds addr) := by
  simp [completeLoad, State.memRead_none s .word addr h]

theorem completeStore_byte (addr v : Word) (h : s.InBounds .byte addr) :
    completeStore .byte addr v s =
      .next ((s.setDmem (s.dmem.write addr.toNat (byteOfWord v 0))).setPc (s.pc + 4#32)) := by
  simp [completeStore, State.memWrite_byte s addr v h, State.nextPc]

theorem completeStore_word (addr v : Word) (h : s.InBounds .word addr) :
    completeStore .word addr v s = .next ((s.setDmem (s.dmem.writeWord addr.toNat v)).setPc (s.pc + 4#32)) := by
  simp [completeStore, State.memWrite_word s addr v h, State.nextPc]

theorem completeStore_outside (w : Width) (addr v : Word) (h : ¬ s.InBounds w addr) :
    completeStore w addr v s = .next (s.raise .memoryOutOfBounds addr) := by
  simp [completeStore, State.memWrite_none s w addr v h]

/-- The difference is zero exactly when the operands are equal (40_datapath_blocks R153). -/
theorem branchTaken_iff (a b : Word) : branchTaken a b = true ↔ a = b := by
  simp only [branchTaken, isZero, beq_iff_eq, BitVec.sub_eq_iff_eq_add, BitVec.zero_add]

theorem completeBranch_eq (a b d : Word) :
    completeBranch a b d s = .next (s.setPc (if a = b then s.pc + d else s.pc + 4#32)) := by
  simp [completeBranch, branchTaken_iff, State.nextPc]

theorem completeJump_eq (rd : RegIdx) (d : Word) :
    completeJump rd d s = .next ((s.setReg rd (s.pc + 4#32)).setPc (s.pc + d)) := rfl

end Sys2Proof.Machine
end

