-- ==== Sys2Proof/Laws/PerInstr.lean ====
section
/-! SUPPORT. Facts about every instruction, one lemma for each constructor. -/

namespace Sys2Proof.Laws.Fields

/-- The word an instruction encodes to has the opcode 30_encoding R98 gives it. -/
def Statement (i : Instr) : Prop := opcodeOf (encode i) = i.opcode

theorem ori (rd rs1 : RegIdx) (imm : BitVec 12) : Statement (.ori rd rs1 imm) := encodeI_opcode ..
theorem srai (rd rs1 : RegIdx) (shamt : BitVec 5) (upper7 : BitVec 7) : Statement (.srai rd rs1 shamt upper7) := encodeR_opcode ..
theorem opimmAdd (rd rs1 : RegIdx) (imm : BitVec 12) : Statement (.opimmAdd rd rs1 imm) := encodeI_opcode ..
theorem opimmSub (rd rs1 : RegIdx) (imm : BitVec 12) : Statement (.opimmSub rd rs1 imm) := encodeI_opcode ..
theorem opimmXor (rd rs1 : RegIdx) (imm : BitVec 12) : Statement (.opimmXor rd rs1 imm) := encodeI_opcode ..
theorem opimmAddF1 (rd rs1 : RegIdx) (imm : BitVec 12) : Statement (.opimmAddF1 rd rs1 imm) := encodeI_opcode ..
theorem opimmAddF23 (rd rs1 : RegIdx) (imm : BitVec 12) (func3 : BitVec 3) : Statement (.opimmAddF23 rd rs1 imm func3) := encodeI_opcode ..
theorem opimmAddF7 (rd rs1 : RegIdx) (imm : BitVec 12) : Statement (.opimmAddF7 rd rs1 imm) := encodeI_opcode ..
theorem add (rd rs1 rs2 : RegIdx) (func7 : BitVec 7) : Statement (.add rd rs1 rs2 func7) := encodeR_opcode ..
theorem sub (rd rs1 rs2 : RegIdx) (func7 : BitVec 7) : Statement (.sub rd rs1 rs2 func7) := encodeR_opcode ..
theorem xor (rd rs1 rs2 : RegIdx) (func7 : BitVec 7) : Statement (.xor rd rs1 rs2 func7) := encodeR_opcode ..
theorem opSra (rd rs1 rs2 : RegIdx) (func7 : BitVec 7) : Statement (.opSra rd rs1 rs2 func7) := encodeR_opcode ..
theorem opOr (rd rs1 rs2 : RegIdx) (func7 : BitVec 7) : Statement (.opOr rd rs1 rs2 func7) := encodeR_opcode ..
theorem opAddF1 (rd rs1 rs2 : RegIdx) (func7 : BitVec 7) : Statement (.opAddF1 rd rs1 rs2 func7) := encodeR_opcode ..
theorem opAddF23 (rd rs1 rs2 : RegIdx) (func7 : BitVec 7) (func3 : BitVec 3) : Statement (.opAddF23 rd rs1 rs2 func7 func3) := encodeR_opcode ..
theorem opAddF7 (rd rs1 rs2 : RegIdx) (func7 : BitVec 7) : Statement (.opAddF7 rd rs1 rs2 func7) := encodeR_opcode ..
theorem lb (rd rs1 : RegIdx) (imm : BitVec 12) : Statement (.lb rd rs1 imm) := encodeI_opcode ..
theorem lw (rd rs1 : RegIdx) (imm : BitVec 12) : Statement (.lw rd rs1 imm) := encodeI_opcode ..
theorem loadF1 (rd rs1 : RegIdx) (imm : BitVec 12) : Statement (.loadF1 rd rs1 imm) := encodeI_opcode ..
theorem loadF3 (rd rs1 : RegIdx) (imm : BitVec 12) : Statement (.loadF3 rd rs1 imm) := encodeI_opcode ..
theorem loadF47 (rd rs1 : RegIdx) (imm : BitVec 12) (func3 : BitVec 3) : Statement (.loadF47 rd rs1 imm func3) := encodeI_opcode ..
theorem sb (rs1 rs2 : RegIdx) (imm : BitVec 12) : Statement (.sb rs1 rs2 imm) := encodeS_opcode ..
theorem sw (rs1 rs2 : RegIdx) (imm : BitVec 12) : Statement (.sw rs1 rs2 imm) := encodeS_opcode ..
theorem storeF1 (rs1 rs2 : RegIdx) (imm : BitVec 12) : Statement (.storeF1 rs1 rs2 imm) := encodeS_opcode ..
theorem storeF3 (rs1 rs2 : RegIdx) (imm : BitVec 12) : Statement (.storeF3 rs1 rs2 imm) := encodeS_opcode ..
theorem storeF47 (rs1 rs2 : RegIdx) (imm : BitVec 12) (func3 : BitVec 3) : Statement (.storeF47 rs1 rs2 imm func3) := encodeS_opcode ..
theorem lui (rd : RegIdx) (imm : BitVec 20) : Statement (.lui rd imm) := encodeU_opcode ..
theorem beq (rs1 rs2 : RegIdx) (disp : BitVec 13) : Statement (.beq rs1 rs2 disp) := encodeB_opcode ..
theorem branchF1 (rs1 rs2 : RegIdx) (disp : BitVec 13) : Statement (.branchF1 rs1 rs2 disp) := encodeB_opcode ..
theorem branchF23 (rs1 rs2 : RegIdx) (disp : BitVec 13) (func3 : BitVec 3) : Statement (.branchF23 rs1 rs2 disp func3) := encodeB_opcode ..
theorem branchF47 (rs1 rs2 : RegIdx) (disp : BitVec 13) (func3 : BitVec 3) : Statement (.branchF47 rs1 rs2 disp func3) := encodeB_opcode ..
theorem jal (rd : RegIdx) (disp : BitVec 21) : Statement (.jal rd disp) := encodeJ_opcode ..

end Sys2Proof.Laws.Fields
end

