-- ==== Sys2Proof/Laws/Step.lean ====
section
/-! SUPPORT. What an instruction and a step can do, said once; later proofs cite it and do not unfold `exec` or `step`. -/

namespace Sys2Proof.Machine

/-- The four ways an instruction ends. -/
inductive ExecShape (i : Instr) (s : State) : State → Prop where
  | register (rd : RegIdx) (v nextPc : Word) (h : i.destination = some rd) :
      ExecShape i s ((s.setReg rd v).setPc nextPc)
  | pcOnly (nextPc : Word) (h : i.destination = none) : ExecShape i s (s.setPc nextPc)
  | store (w : Width) (addr v : Word) (t : State) (h : s.memWrite w addr v = some t) (hd : i.destination = none)
      (ho : i.opcode = opcodeStore) : ExecShape i s (t.setPc (s.pc + 4#32))
  | outOfBounds (w : Width) (addr : Word) (h : ¬ s.InBounds w addr) : ExecShape i s (s.raise .memoryOutOfBounds addr)

theorem ExecShape.of_completeLoad {i : Instr} {s : State} (rd : RegIdx) (addr : Word) (h : i.destination = some rd) :
    ∃ t, completeLoad rd addr s = .next t ∧ ExecShape i s t := by
  by_cases hb : s.InBounds .word addr
  · exact ⟨_, completeLoad_inBounds s rd addr hb, .register _ _ _ h⟩
  · exact ⟨_, completeLoad_outside s rd addr hb, .outOfBounds _ _ hb⟩

theorem ExecShape.of_completeStore {i : Instr} {s : State} (w : Width) (addr v : Word) (hd : i.destination = none)
    (ho : i.opcode = opcodeStore) : ∃ t, completeStore w addr v s = .next t ∧ ExecShape i s t := by
  by_cases hb : s.InBounds w addr
  · cases w with
    | byte =>
      exact ⟨_, completeStore_byte s addr v hb, .store .byte addr v _ (State.memWrite_byte s addr v hb) hd ho⟩
    | word =>
      exact ⟨_, completeStore_word s addr v hb, .store .word addr v _ (State.memWrite_word s addr v hb) hd ho⟩
  · exact ⟨_, completeStore_outside s w addr v hb, .outOfBounds w addr hb⟩

/-- Every instruction answers a next state, of one of the four shapes. -/
theorem exec_shape (i : Instr) (s : State) : ∃ t, exec i s = .next t ∧ ExecShape i s t := by
  cases i
  case lb | lw | loadF1 | loadF3 | loadF47 => exact ExecShape.of_completeLoad _ _ rfl
  case sb | sw | storeF1 | storeF3 | storeF47 => exact ExecShape.of_completeStore _ _ _ rfl rfl
  case beq | branchF1 | branchF23 | branchF47 => exact ⟨_, rfl, .pcOnly _ rfl⟩
  all_goals exact ⟨_, rfl, .register _ _ _ rfl⟩

/-- The shape of the state an instruction answered. -/
theorem ExecShape.of_exec {i : Instr} {s t : State} (h : exec i s = .next t) : ExecShape i s t := by
  obtain ⟨u, hu, hs⟩ := exec_shape i s
  rw [hu] at h
  cases h
  exact hs

/-- The five things a step does (41_cycle_sequencer R170). -/
inductive StepShape (s : State) : State → Prop where
  | stopped (h : s.status ≠ .running) : StepShape s s
  | halts (h : s.status = .running) (hp : s.maxAddress ≤ s.pc.toNat) : StepShape s s.halt
  | misaligned (h : s.status = .running) (hp : s.pc.toNat < s.maxAddress) (ha : s.pc.toNat % 4 ≠ 0) :
      StepShape s (s.raise .misalignedPC s.pc)
  | unsupported (h : s.status = .running) (hp : s.pc.toNat < s.maxAddress) (ha : s.pc.toNat % 4 = 0)
      (r : Reject) (hd : decode s.fetchWord = .error r) : StepShape s (s.raise .unsupportedOpcode s.fetchWord)
  | runs (h : s.status = .running) (hp : s.pc.toNat < s.maxAddress) (ha : s.pc.toNat % 4 = 0)
      (i : Instr) (hd : decode s.fetchWord = .ok i) (t : State) (he : exec i s = .next t) : StepShape s t

/-- A step answers a next state, of one of the five shapes. -/
theorem step_shape (s : State) : ∃ t, step s = .next t ∧ StepShape s t := by
  unfold step driverStep
  split
  · rename_i hrun
    unfold runCycle
    split
    · rename_i hp; exact ⟨_, rfl, .halts hrun hp⟩
    · rename_i hp
      have hp' : s.pc.toNat < s.maxAddress := Nat.lt_of_not_le hp
      split
      · rename_i ha; exact ⟨_, rfl, .misaligned hrun hp' ha⟩
      · rename_i ha
        have ha' : s.pc.toNat % 4 = 0 := by omega
        unfold runWord
        split
        · rename_i i hd
          obtain ⟨t, ht, -⟩ := exec_shape i s
          exact ⟨t, ht, .runs hrun hp' ha' i hd t ht⟩
        · rename_i r hd; exact ⟨_, rfl, .unsupported hrun hp' ha' r hd⟩
  · rename_i h; exact ⟨_, rfl, .stopped (by simp [h])⟩
  · rename_i h; exact ⟨_, rfl, .stopped (by simp [h])⟩

theorem StepShape.of_step {s t : State} (h : step s = .next t) : StepShape s t := by
  obtain ⟨u, hu, hs⟩ := step_shape s
  rw [hu] at h
  cases h
  exact hs

/-- An induction over a run, packaged once. -/
theorem Reaches.invariant {P : State → Prop} (hstep : ∀ s t, P s → step s = .next t → P t) {s t : State} (h : Reaches s t)
    (hs : P s) : P t := by
  induction h with
  | refl => exact hs
  | tail _ hst ih => exact hstep _ _ ih hst

end Sys2Proof.Machine
end

