-- ==== Sys2Proof/Tests/Slice0.lean ====
section
/-! SUPPORT. Tests: ill-formed terms are refused, every constructor's decoding from a word laid out field by field, one step on small
states, the state after reset, and a witness for every statement that has hypotheses. Expected results are the vectors of
spec/95_test_vectors.md (named in the docstrings) or worked out by hand from the rules named there. -/

namespace Sys2Proof.Tests

open Sys2Proof Sys2Proof.Machine

/-! ### Helpers -/

/-- A running machine in the reference sizing with some registers, some memory and a pc. -/
def machine (regs : List (RegIdx × Word)) (mem : Memory := []) (pc : Word := 0#32) : State :=
  regs.foldl (fun s p => s.setReg p.1 p.2) { State.reset with dmem := mem, pc := pc }

/-- One step that fetches the word `w`. -/
def after (w : Word) (s : State) : Result := step (s.withFetchWord 32 w.toNat)

/-- The step answers a next state that `p` holds of. -/
def lands (r : Result) (p : State → Bool) : Bool :=
  match r with
  | .next t => p t
  | .fault _ => false
  | .refused _ => false

/-- A result that lands on `t` is `t`. -/
theorem of_lands {r : Result} {t : State} (h : lands r (fun u => u == t) = true) : r = .next t := by
  cases r with
  | next u => exact congrArg _ (beq_iff_eq.1 h)
  | fault _ => cases h
  | refused _ => cases h

/-- Still running, with the given pc, the given value in a register, and the memory `m`. -/
def Ran (pc : Word) (r : RegIdx) (v : Word) (m : Memory) (t : State) : Bool :=
  t.status == .running && t.pc == pc && t.reg r == v && t.dmem == m

/-- The memory of 95_test_vectors section 4.3. -/
def loadMem : Memory :=
  [(0x100, 0x11#8), (0x101, 0x22#8), (0x102, 0x33#8), (0x103, 0x84#8), (0x104, 0x55#8), (0x105, 0x66#8), (0x106, 0x77#8),
    (0x107, 0x88#8)]

/-- The memory of 95_test_vectors section 4.4. -/
def storeMem : Memory :=
  [(0x200, 0xA0#8), (0x201, 0xA1#8), (0x202, 0xA2#8), (0x203, 0xA3#8), (0x204, 0xA4#8), (0x205, 0xA5#8), (0x206, 0xA6#8),
    (0x207, 0xA7#8)]

/-! ### Ill-formed terms are refused, one for each check of `Instr.wf` -/

theorem test_wf_opimmAdd_bit30 : ¬ Instr.WellFormed (.opimmAdd 1#5 2#5 0x400#12) := by decide
theorem test_wf_opimmSub_bit30 : ¬ Instr.WellFormed (.opimmSub 1#5 2#5 0xBFF#12) := by decide
theorem test_wf_opimmAddF23_func3 : ¬ Instr.WellFormed (.opimmAddF23 1#5 2#5 0#12 4#3) := by decide
theorem test_wf_add_bit30 : ¬ Instr.WellFormed (.add 1#5 2#5 3#5 0x20#7) := by decide
theorem test_wf_sub_bit30 : ¬ Instr.WellFormed (.sub 1#5 2#5 3#5 0x5F#7) := by decide
theorem test_wf_opAddF23_func3 : ¬ Instr.WellFormed (.opAddF23 1#5 2#5 3#5 0#7 1#3) := by decide
theorem test_wf_loadF47_func3 : ¬ Instr.WellFormed (.loadF47 1#5 2#5 0#12 3#3) := by decide
theorem test_wf_storeF47_func3 : ¬ Instr.WellFormed (.storeF47 1#5 2#5 0#12 2#3) := by decide
theorem test_wf_beq_odd : ¬ Instr.WellFormed (.beq 1#5 2#5 1#13) := by decide
theorem test_wf_branchF1_odd : ¬ Instr.WellFormed (.branchF1 1#5 2#5 5#13) := by decide
theorem test_wf_branchF23_odd : ¬ Instr.WellFormed (.branchF23 1#5 2#5 7#13 2#3) := by decide
theorem test_wf_branchF23_func3 : ¬ Instr.WellFormed (.branchF23 1#5 2#5 8#13 0#3) := by decide
theorem test_wf_branchF47_odd : ¬ Instr.WellFormed (.branchF47 1#5 2#5 9#13 4#3) := by decide
theorem test_wf_branchF47_func3 : ¬ Instr.WellFormed (.branchF47 1#5 2#5 8#13 3#3) := by decide
theorem test_wf_jal_odd : ¬ Instr.WellFormed (.jal 1#5 0x1FFFFF#21) := by decide

/-! ### Every constructor's decoding, from the fields of its format as 30_encoding R84 to R89 lay them out -/

/-- Word 0xFFF2E513 (95_test_vectors T-OPI-1). -/
theorem test_decode_ori :
    decode (0b111111111111#12 ++ 0b00101#5 ++ 0b110#3 ++ 0b01010#5 ++ 0b0010011#7) =
      .ok (.ori 10#5 5#5 0xFFF#12) := by decide
/-- Word 0x4042D513 (95_test_vectors T-OPI-8). -/
theorem test_decode_srai :
    decode (0b0100000#7 ++ 0b00100#5 ++ 0b00101#5 ++ 0b101#3 ++ 0b01010#5 ++ 0b0010011#7) =
      .ok (.srai 10#5 5#5 4#5 0x20#7) := by decide
/-- Word 0xBFF28513 (95_test_vectors T-OPI-19). -/
theorem test_decode_opimmAdd :
    decode (0b101111111111#12 ++ 0b00101#5 ++ 0b000#3 ++ 0b01010#5 ++ 0b0010011#7) =
      .ok (.opimmAdd 10#5 5#5 0xBFF#12) := by decide
/-- Word 0x7FF28513 (95_test_vectors T-OPI-21). -/
theorem test_decode_opimmSub :
    decode (0b011111111111#12 ++ 0b00101#5 ++ 0b000#3 ++ 0b01010#5 ++ 0b0010011#7) =
      .ok (.opimmSub 10#5 5#5 0x7FF#12) := by decide
/-- Word 0x0FF2C513 (95_test_vectors T-OPI-25). -/
theorem test_decode_opimmXor :
    decode (0b000011111111#12 ++ 0b00101#5 ++ 0b100#3 ++ 0b01010#5 ++ 0b0010011#7) =
      .ok (.opimmXor 10#5 5#5 0x0FF#12) := by decide
/-- Word 0x40029513 (95_test_vectors T-OPI-30). -/
theorem test_decode_opimmAddF1 :
    decode (0b010000000000#12 ++ 0b00101#5 ++ 0b001#3 ++ 0b01010#5 ++ 0b0010011#7) =
      .ok (.opimmAddF1 10#5 5#5 0x400#12) := by decide
/-- Word 0x7FF2B513 (95_test_vectors T-OPI-28). -/
theorem test_decode_opimmAddF23 :
    decode (0b011111111111#12 ++ 0b00101#5 ++ 0b011#3 ++ 0b01010#5 ++ 0b0010011#7) =
      .ok (.opimmAddF23 10#5 5#5 0x7FF#12 3#3) := by decide
/-- Word 0x0FF2F513 (95_test_vectors T-OPI-29). -/
theorem test_decode_opimmAddF7 :
    decode (0b000011111111#12 ++ 0b00101#5 ++ 0b111#3 ++ 0b01010#5 ++ 0b0010011#7) =
      .ok (.opimmAddF7 10#5 5#5 0x0FF#12) := by decide
/-- Word 0xBEB50633 (95_test_vectors T-OP-8). -/
theorem test_decode_add :
    decode (0b1011111#7 ++ 0b01011#5 ++ 0b01010#5 ++ 0b000#3 ++ 0b01100#5 ++ 0b0110011#7) =
      .ok (.add 12#5 10#5 11#5 0x5F#7) := by decide
/-- Word 0x40B506B3 (95_test_vectors T-OP-9). -/
theorem test_decode_sub :
    decode (0b0100000#7 ++ 0b01011#5 ++ 0b01010#5 ++ 0b000#3 ++ 0b01101#5 ++ 0b0110011#7) =
      .ok (.sub 13#5 10#5 11#5 0x20#7) := by decide
/-- Word 0x40D64733 (95_test_vectors T-OP-15). -/
theorem test_decode_xor :
    decode (0b0100000#7 ++ 0b01101#5 ++ 0b01100#5 ++ 0b100#3 ++ 0b01110#5 ++ 0b0110011#7) =
      .ok (.xor 14#5 12#5 13#5 0x20#7) := by decide
/-- Word 0x40B55633 (95_test_vectors T-OP-17). -/
theorem test_decode_opSra :
    decode (0b0100000#7 ++ 0b01011#5 ++ 0b01010#5 ++ 0b101#3 ++ 0b01100#5 ++ 0b0110011#7) =
      .ok (.opSra 12#5 10#5 11#5 0x20#7) := by decide
/-- Word 0x00B56633 (95_test_vectors T-OP-21). -/
theorem test_decode_opOr :
    decode (0b0000000#7 ++ 0b01011#5 ++ 0b01010#5 ++ 0b110#3 ++ 0b01100#5 ++ 0b0110011#7) =
      .ok (.opOr 12#5 10#5 11#5 0#7) := by decide
/-- Word 0x00B51633 (95_test_vectors T-OP-23). -/
theorem test_decode_opAddF1 :
    decode (0b0000000#7 ++ 0b01011#5 ++ 0b01010#5 ++ 0b001#3 ++ 0b01100#5 ++ 0b0110011#7) =
      .ok (.opAddF1 12#5 10#5 11#5 0#7) := by decide
/-- Word 0x40B53633 (95_test_vectors T-OP-25). -/
theorem test_decode_opAddF23 :
    decode (0b0100000#7 ++ 0b01011#5 ++ 0b01010#5 ++ 0b011#3 ++ 0b01100#5 ++ 0b0110011#7) =
      .ok (.opAddF23 12#5 10#5 11#5 0x20#7 3#3) := by decide
/-- Word 0x00B57633 (95_test_vectors T-OP-22). -/
theorem test_decode_opAddF7 :
    decode (0b0000000#7 ++ 0b01011#5 ++ 0b01010#5 ++ 0b111#3 ++ 0b01100#5 ++ 0b0110011#7) =
      .ok (.opAddF7 12#5 10#5 11#5 0#7) := by decide
/-- Word 0x00328503 (95_test_vectors T-LD-6). -/
theorem test_decode_lb :
    decode (0b000000000011#12 ++ 0b00101#5 ++ 0b000#3 ++ 0b01010#5 ++ 0b0000011#7) =
      .ok (.lb 10#5 5#5 3#12) := by decide
/-- Word 0xFFC2A503 (95_test_vectors T-LD-2). -/
theorem test_decode_lw :
    decode (0b111111111100#12 ++ 0b00101#5 ++ 0b010#3 ++ 0b01010#5 ++ 0b0000011#7) =
      .ok (.lw 10#5 5#5 0xFFC#12) := by decide
/-- Word 0x00029503 (95_test_vectors T-LD-11). -/
theorem test_decode_loadF1 :
    decode (0b000000000000#12 ++ 0b00101#5 ++ 0b001#3 ++ 0b01010#5 ++ 0b0000011#7) =
      .ok (.loadF1 10#5 5#5 0#12) := by decide
/-- Word 0x0082B503 (fields laid out by 30_encoding section 1). -/
theorem test_decode_loadF3 :
    decode (0b000000001000#12 ++ 0b00101#5 ++ 0b011#3 ++ 0b01010#5 ++ 0b0000011#7) =
      .ok (.loadF3 10#5 5#5 8#12) := by decide
/-- Word 0x0002D503 (95_test_vectors T-LD-12). -/
theorem test_decode_loadF47 :
    decode (0b000000000000#12 ++ 0b00101#5 ++ 0b101#3 ++ 0b01010#5 ++ 0b0000011#7) =
      .ok (.loadF47 10#5 5#5 0#12 5#3) := by decide
/-- Word 0xFE638FA3 (95_test_vectors T-ST-5). -/
theorem test_decode_sb :
    decode (0b1111111#7 ++ 0b00110#5 ++ 0b00111#5 ++ 0b000#3 ++ 0b11111#5 ++ 0b0100011#7) =
      .ok (.sb 7#5 6#5 0xFFF#12) := by decide
/-- Word 0x0663AE23 (95_test_vectors T-ST-10). -/
theorem test_decode_sw :
    decode (0b0000011#7 ++ 0b00110#5 ++ 0b00111#5 ++ 0b010#3 ++ 0b11100#5 ++ 0b0100011#7) =
      .ok (.sw 7#5 6#5 0x07C#12) := by decide
/-- Word 0x00639023 (95_test_vectors T-ST-11). -/
theorem test_decode_storeF1 :
    decode (0b0000000#7 ++ 0b00110#5 ++ 0b00111#5 ++ 0b001#3 ++ 0b00000#5 ++ 0b0100011#7) =
      .ok (.storeF1 7#5 6#5 0#12) := by decide
/-- Word 0xFE63B0A3 (fields laid out by 30_encoding section 1). -/
theorem test_decode_storeF3 :
    decode (0b1111111#7 ++ 0b00110#5 ++ 0b00111#5 ++ 0b011#3 ++ 0b00001#5 ++ 0b0100011#7) =
      .ok (.storeF3 7#5 6#5 0xFE1#12) := by decide
/-- Word 0x0063F023 (95_test_vectors T-ST-12). -/
theorem test_decode_storeF47 :
    decode (0b0000000#7 ++ 0b00110#5 ++ 0b00111#5 ++ 0b111#3 ++ 0b00000#5 ++ 0b0100011#7) =
      .ok (.storeF47 7#5 6#5 0#12 7#3) := by decide
/-- Word 0x12345537 (95_test_vectors T-LUI-1). -/
theorem test_decode_lui :
    decode (0b00010010001101000101#20 ++ 0b01010#5 ++ 0b0110111#7) =
      .ok (.lui 10#5 0x12345#20) := by decide
/-- Word 0x006280E3 (95_test_vectors T-BR-7). -/
theorem test_decode_beq :
    decode (0b0#1 ++ 0b000000#6 ++ 0b00110#5 ++ 0b00101#5 ++ 0b000#3 ++ 0b0000#4 ++ 0b1#1 ++ 0b1100011#7) =
      .ok (.beq 5#5 6#5 2048#13) := by decide
/-- Word 0x00629463 (95_test_vectors T-BR-11). -/
theorem test_decode_branchF1 :
    decode (0b0#1 ++ 0b000000#6 ++ 0b00110#5 ++ 0b00101#5 ++ 0b001#3 ++ 0b0100#4 ++ 0b0#1 ++ 0b1100011#7) =
      .ok (.branchF1 5#5 6#5 8#13) := by decide
/-- Word 0xFE62AEE3 (fields laid out by 30_encoding section 1). -/
theorem test_decode_branchF23 :
    decode (0b1#1 ++ 0b111111#6 ++ 0b00110#5 ++ 0b00101#5 ++ 0b010#3 ++ 0b1110#4 ++ 0b1#1 ++ 0b1100011#7) =
      .ok (.branchF23 5#5 6#5 0x1FFC#13 2#3) := by decide
/-- Word 0xFE62FCE3 (95_test_vectors T-BR-14). -/
theorem test_decode_branchF47 :
    decode (0b1#1 ++ 0b111111#6 ++ 0b00110#5 ++ 0b00101#5 ++ 0b111#3 ++ 0b1100#4 ++ 0b1#1 ++ 0b1100011#7) =
      .ok (.branchF47 5#5 6#5 0x1FF8#13 7#3) := by decide
/-- Word 0x346120EF (95_test_vectors T-JAL-9). -/
theorem test_decode_jal :
    decode (0b0#1 ++ 0b0110100011#10 ++ 0b0#1 ++ 0b00010010#8 ++ 0b00001#5 ++ 0b1101111#7) =
      .ok (.jal 1#5 0x12346#21) := by decide
theorem test_decode_unsupported : decode 0x00000073#32 = .error (.unsupportedOpcode 0x00000073#32) := by decide
/-- Opcode 0x12, one bit from 0x13 (T-F-7). -/
theorem test_decode_near_miss : decode 0x00000012#32 = .error (.unsupportedOpcode 0x00000012#32) := by decide

/-! ### Immediates (95_test_vectors section 2) -/

/-- T-IMM-3, T-IMM-12. -/
theorem test_imm_low : immI (immIOf 0x80000013#32) = 0xFFFFF800#32 ∧ immS (immSOf 0x80000023#32) = 0xFFFFF800#32 := by decide
/-- T-IMM-13, T-IMM-14: the two parts of the S immediate. -/
theorem test_immS_parts : immS (immSOf 0x00000FA3#32) = 31#32 ∧ immS (immSOf 0xFE000023#32) = 0xFFFFFFE0#32 := by decide
/-- T-IMM-17, T-IMM-18, T-IMM-21, T-IMM-22. -/
theorem test_dispB : dispB (dispBOf 0x7E000FE3#32) = 4094#32 ∧ dispB (dispBOf 0x80000063#32) = 0xFFFFF000#32 ∧
    dispB (dispBOf 0x000000E3#32) = 2048#32 ∧ dispB (dispBOf 0x00000163#32) = 2#32 := by decide
/-- T-IMM-30, T-IMM-31, T-IMM-32, T-IMM-34. -/
theorem test_dispJ : dispJ (dispJOf 0x8000006F#32) = 0xFFF00000#32 ∧ dispJ (dispJOf 0x0010006F#32) = 2048#32 ∧
    dispJ (dispJOf 0x000FF06F#32) = 0x000FF000#32 ∧ dispJ (dispJOf 0x1234606F#32) = 0x00046922#32 := by decide
/-- T-IMM-9, T-IMM-24. -/
theorem test_shamt_and_immU : shamtWord (shamtOf 0xFE405013#32) = 4#32 ∧ immU (immUOf 0xFFFFF037#32) = 0xFFFFF000#32 := by
  decide

/-! ### The ALU (95_test_vectors section 3) -/

/-- T-ALU-8, T-ALU-10, T-ALU-14. -/
theorem test_alu_wraps : alu 0x80000000#32 0x80000000#32 .add = 0#32 ∧ alu 5#32 7#32 .sub = 0xFFFFFFFE#32 ∧
    alu 0#32 0x80000000#32 .sub = 0x80000000#32 := by decide
/-- T-ALU-22, T-ALU-23, T-ALU-24, T-ALU-26. -/
theorem test_alu_sra : alu 0x80000000#32 0x24#32 .sra = 0xF8000000#32 ∧ alu 0x80000000#32 0x20#32 .sra = 0x80000000#32 ∧
    alu 0x12345678#32 0xFFFFFFE8#32 .sra = 0x00123456#32 ∧ alu 0x40000000#32 0x1E#32 .sra = 1#32 := by decide
/-- T-ALU-2, T-ALU-15. -/
theorem test_alu_logic : alu 0xF0F0F0F0#32 0x0F0F0F0F#32 .or = 0xFFFFFFFF#32 ∧
    alu 0xFF00FF00#32 0x0FF00FF0#32 .xor = 0xF0F0F0F0#32 := by decide

/-! ### One step of each instruction (95_test_vectors section 4) -/

/-- T-OPI-4. -/
theorem test_ori : lands (after 0x0F02E293#32 (machine [(5#5, 0x12345000#32)])) (Ran 4#32 5#5 0x123450F0#32 []) := by decide
/-- T-OPI-5: a destination x0. -/
theorem test_ori_x0 : lands (after 0x0012E013#32 (machine [(5#5, 0x55#32)]))
    (fun t => Ran 4#32 0#5 0#32 [] t && t.regs == (machine [(5#5, 0x55#32)]).regs) := by decide
/-- T-OPI-13: destination and source are one register. -/
theorem test_srai : lands (after 0x4082D293#32 (machine [(5#5, 0x12345678#32)])) (Ran 4#32 5#5 0x00123456#32 []) := by decide
/-- T-OPI-14: bits 31:25 do not make it a logical shift. -/
theorem test_srai_ignored_bits : lands (after 0x0042D513#32 (machine [(5#5, 0x80000000#32)]))
    (Ran 4#32 10#5 0xF8000000#32 []) := by decide
/-- T-OPI-19. -/
theorem test_opimmAdd : lands (after 0xBFF28513#32 (machine [(5#5, 0x1000#32)])) (Ran 4#32 10#5 0xBFF#32 []) := by decide
/-- T-OPI-21, T-OPI-23. -/
theorem test_opimmSub : lands (after 0x7FF28513#32 (machine [(5#5, 0x1000#32)])) (Ran 4#32 10#5 0x801#32 []) ∧
    lands (after 0xC0028513#32 (machine [])) (Ran 4#32 10#5 0x400#32 []) := by decide
/-- T-OPI-24. -/
theorem test_opimmXor : lands (after 0xFFF2C513#32 (machine [(5#5, 0x0F0F0F0F#32)])) (Ran 4#32 10#5 0xF0F0F0F0#32 []) := by
  decide
/-- T-OPI-30: bit 30 matters only if func3 = 0. -/
theorem test_opimmAddF1 : lands (after 0x40029513#32 (machine [(5#5, 0x10#32)])) (Ran 4#32 10#5 0x410#32 []) := by decide
/-- T-OPI-27, T-OPI-28. -/
theorem test_opimmAddF23 : lands (after 0xFFF2A513#32 (machine [(5#5, 0x10#32)])) (Ran 4#32 10#5 0xF#32 []) ∧
    lands (after 0x7FF2B513#32 (machine [(5#5, 0xFFFFFFFF#32)])) (Ran 4#32 10#5 0x7FE#32 []) := by decide
/-- T-OPI-29: an add, not an AND. -/
theorem test_opimmAddF7 : lands (after 0x0FF2F513#32 (machine [(5#5, 0x100#32)])) (Ran 4#32 10#5 0x1FF#32 []) := by decide
/-- T-OP-3. -/
theorem test_add : lands (after 0x00B50633#32 (machine [(10#5, 0xFFFFFFFF#32), (11#5, 1#32), (12#5, 0x99#32)]))
    (Ran 4#32 12#5 0#32 []) := by decide
/-- T-OP-4: one register is both sources and the destination. -/
theorem test_add_self : lands (after 0x00A50533#32 (machine [(10#5, 0x80000001#32)])) (Ran 4#32 10#5 2#32 []) := by decide
/-- T-OP-9. -/
theorem test_sub : lands (after 0x40B506B3#32 (machine [(10#5, 5#32), (11#5, 7#32)])) (Ran 4#32 13#5 0xFFFFFFFE#32 []) := by
  decide
/-- T-OP-14. -/
theorem test_xor : lands (after 0x00D64733#32 (machine [(12#5, 0xC#32), (13#5, 0xFFFFFFFE#32)]))
    (Ran 4#32 14#5 0xFFFFFFF2#32 []) := by decide
/-- T-OP-18, T-OP-19. -/
theorem test_opSra : lands (after 0x00B55633#32 (machine [(10#5, 0x80000000#32), (11#5, 4#32)]))
      (Ran 4#32 12#5 0xF8000000#32 []) ∧
    lands (after 0x00B55633#32 (machine [(10#5, 0x80000000#32), (11#5, 0x24#32)])) (Ran 4#32 12#5 0xF8000000#32 []) := by decide
/-- T-OP-21. -/
theorem test_opOr : lands (after 0x00B56633#32 (machine [(10#5, 0xF0F0#32), (11#5, 0xFF0#32)])) (Ran 4#32 12#5 0xFFF0#32 []) := by
  decide
/-- T-OP-23. -/
theorem test_opAddF1 : lands (after 0x00B51633#32 (machine [(10#5, 3#32), (11#5, 4#32)])) (Ran 4#32 12#5 7#32 []) := by decide
/-- T-OP-25. -/
theorem test_opAddF23 : lands (after 0x40B53633#32 (machine [(10#5, 3#32), (11#5, 4#32)])) (Ran 4#32 12#5 7#32 []) := by decide
/-- T-OP-22: an add, not an AND. -/
theorem test_opAddF7 : lands (after 0x00B57633#32 (machine [(10#5, 0xF0F0#32), (11#5, 0xFF0#32)]))
    (Ran 4#32 12#5 0x100E0#32 []) := by decide
/-- T-LD-6: a word load. -/
theorem test_lb : lands (after 0x00328503#32 (machine [(5#5, 0x100#32)] loadMem)) (Ran 4#32 10#5 0x77665584#32 loadMem) := by
  decide
/-- T-LD-16: LB of the last byte is out of bounds. -/
theorem test_lb_outOfBounds : lands (after 0x00028503#32 (machine [(5#5, 0xFFF#32)]))
    (fun t => t.status == .faulted .memoryOutOfBounds 0#32 0xFFF#32 && t.pc == 0#32 && t.reg 10#5 == 0#32) := by decide
/-- T-LD-3: misaligned. -/
theorem test_lw : lands (after 0x1002A503#32 (machine [(5#5, 1#32)] loadMem)) (Ran 4#32 10#5 0x55843322#32 loadMem) := by decide
/-- T-LD-8: the address comes from the old value of the destination. -/
theorem test_lw_same_register : lands (after 0x0082A283#32 (machine [(5#5, 0xF8#32)] loadMem))
    (Ran 4#32 5#5 0x84332211#32 loadMem) := by decide
/-- T-LD-11. -/
theorem test_loadF1 : lands (after 0x00029503#32 (machine [(5#5, 0x102#32)] loadMem)) (Ran 4#32 10#5 0x66558433#32 loadMem) := by
  decide
/-- By hand: address 0x104 + 0. -/
theorem test_loadF3 : lands (after 0x0082B503#32 (machine [(5#5, 0xFC#32)] loadMem)) (Ran 4#32 10#5 0x88776655#32 loadMem) := by
  decide
/-- T-LD-10. -/
theorem test_loadF47 : lands (after 0x0002C503#32 (machine [(5#5, 0x103#32)] loadMem)) (Ran 4#32 10#5 0x77665584#32 loadMem) := by
  decide
/-- T-ST-6. -/
theorem test_sb : lands (after 0x00638023#32 (machine [(6#5, 0x7AB#32), (7#5, 0x206#32)] storeMem))
    (fun t => t.pc == 4#32 && t.dmem.read 0x206 == 0xAB#8 && t.dmem.read 0x205 == 0xA5#8 && t.dmem.read 0x207 == 0xA7#8) := by
  decide
/-- T-ST-7: a stored zero leaves the listing canonical. -/
theorem test_sb_zero : lands (after 0x00038023#32 (machine [(6#5, 0x11223344#32), (7#5, 0x202#32)] storeMem))
    (fun t => t.dmem == storeMem.filter (fun c => c.1 != 0x202)) := by decide
/-- T-ST-3: misaligned. -/
theorem test_sw : lands (after 0x0063A0A3#32 (machine [(6#5, 0x11223344#32), (7#5, 0x200#32)] storeMem))
    (fun t => t.pc == 4#32 && t.dmem == [(0x200, 0xA0#8), (0x201, 0x44#8), (0x202, 0x33#8), (0x203, 0x22#8), (0x204, 0x11#8),
      (0x205, 0xA5#8), (0x206, 0xA6#8), (0x207, 0xA7#8)]) := by decide
/-- T-ST-16: nothing is written, not even the bytes that fit. -/
theorem test_sw_outOfBounds : lands (after 0x0063A023#32 (machine [(6#5, 0x11223344#32), (7#5, 0xFFD#32)] storeMem))
    (fun t => t.status == .faulted .memoryOutOfBounds 0#32 0xFFD#32 && t.dmem == storeMem && t.pc == 0#32) := by decide
/-- T-ST-11. -/
theorem test_storeF1 : lands (after 0x00639023#32 (machine [(6#5, 0x11223344#32), (7#5, 0x200#32)]))
    (Ran 4#32 6#5 0x11223344#32 [(0x200, 0x44#8), (0x201, 0x33#8), (0x202, 0x22#8), (0x203, 0x11#8)]) := by decide
/-- By hand: address 0x21F - 31. -/
theorem test_storeF3 : lands (after 0xFE63B0A3#32 (machine [(6#5, 0x11223344#32), (7#5, 0x21F#32)]))
    (Ran 4#32 6#5 0x11223344#32 [(0x200, 0x44#8), (0x201, 0x33#8), (0x202, 0x22#8), (0x203, 0x11#8)]) := by decide
/-- T-ST-12. -/
theorem test_storeF47 : lands (after 0x0063F023#32 (machine [(6#5, 0x11223344#32), (7#5, 0x204#32)]))
    (Ran 4#32 6#5 0x11223344#32 [(0x204, 0x44#8), (0x205, 0x33#8), (0x206, 0x22#8), (0x207, 0x11#8)]) := by decide
/-- T-LUI-8: bit 30 and bits 14:12 are immediate bits. -/
theorem test_lui : lands (after 0x40005537#32 (machine [])) (Ran 4#32 10#5 0x40005000#32 []) := by decide
/-- T-BR-1, T-BR-2. -/
theorem test_beq : lands (after 0x00628463#32 (machine [(5#5, 7#32), (6#5, 7#32)] [] 0x100#32)) (Ran 0x108#32 5#5 7#32 []) ∧
    lands (after 0x00628463#32 (machine [(5#5, 7#32), (6#5, 8#32)] [] 0x100#32)) (Ran 0x104#32 5#5 7#32 []) := by decide
/-- T-BR-10: the target wraps. -/
theorem test_beq_wraps : lands (after 0x80000063#32 (machine [])) (Ran 0xFFFFF000#32 0#5 0#32 []) := by decide
/-- T-BR-11, T-BR-12. -/
theorem test_branchF1 : lands (after 0x00629463#32 (machine [(5#5, 7#32), (6#5, 7#32)] [] 0x100#32)) (Ran 0x108#32 5#5 7#32 []) ∧
    lands (after 0x00629463#32 (machine [(5#5, 7#32), (6#5, 8#32)] [] 0x100#32)) (Ran 0x104#32 5#5 7#32 []) := by decide
/-- By hand: displacement -4, equal operands. -/
theorem test_branchF23 : lands (after 0xFE62AEE3#32 (machine [(5#5, 1#32), (6#5, 1#32)] [] 0x100#32))
    (Ran 0xFC#32 5#5 1#32 []) := by decide
/-- T-BR-13, T-BR-14. -/
theorem test_branchF47 : lands (after 0x0062C463#32 (machine [(5#5, 1#32), (6#5, 2#32)] [] 0x100#32)) (Ran 0x104#32 5#5 1#32 []) ∧
    lands (after 0xFE62FCE3#32 (machine [(5#5, 9#32), (6#5, 9#32)] [] 0x100#32)) (Ran 0xF8#32 5#5 9#32 []) := by decide
/-- T-JAL-1. -/
theorem test_jal : lands (after 0x014000EF#32 (machine [] [] 0x10#32)) (Ran 0x24#32 1#5 0x14#32 []) := by decide
/-- T-JAL-8: a misaligned target; the link is still written. -/
theorem test_jal_misaligned : lands (after 0x002002EF#32 (machine [] [] 0x100#32)) (Ran 0x102#32 5#5 0x104#32 []) := by decide

/-! ### The sequencer and the faults (95_test_vectors sections 5 and 6) -/

/-- T-F-4. -/
theorem test_unsupported : lands (after 0x00008067#32 (machine [(5#5, 1#32)] [] 8#32))
    (fun t => t.status == .faulted .unsupportedOpcode 8#32 0x00008067#32 && t.pc == 8#32 && t.reg 5#5 == 1#32) := by decide
/-- T-F-16. -/
theorem test_misaligned : lands (step { machine [] [] 0xE#32 with imem := [0#32, 0#32, 0#32, 0#32] })
    (fun t => t.status == .faulted .misalignedPC 0xE#32 0xE#32 && t.pc == 0xE#32) := by decide
/-- T-F-17: the halt test comes first. -/
theorem test_halt_before_misaligned : lands (step { machine [] [] 0x12#32 with imem := [0#32, 0#32, 0#32, 0#32] })
    (fun t => t.status == .halted && t.pc == 0x12#32) := by decide
/-- T-F-13, T-F-14: a memory of 16 bytes. -/
theorem test_small_memory :
    lands (after 0x0063A023#32 { machine [(6#5, 1#32), (7#5, 0xD#32)] with cfg := ⟨16⟩ })
      (fun t => t.status == .faulted .memoryOutOfBounds 0#32 0xD#32 && t.dmem == []) ∧
    lands (after 0x0063A023#32 { machine [(6#5, 0xAABBCCDD#32), (7#5, 0xC#32)] with cfg := ⟨16⟩ })
      (Ran 4#32 0#5 0#32 [(0xC, 0xDD#8), (0xD, 0xCC#8), (0xE, 0xBB#8), (0xF, 0xAA#8)]) := by decide
/-- T-SEQ-1: from reset with nothing loaded the first step halts. -/
theorem test_reset_halts : lands (step State.reset) (fun t => t == State.reset.halt) := by decide
/-- T-SEQ-6, T-SEQ-7. -/
theorem test_stopped : lands (step State.reset.halt) (fun t => t == State.reset.halt) ∧
    lands (step (State.reset.raise .misalignedPC 2#32)) (fun t => t == State.reset.raise .misalignedPC 2#32) := by decide
/-- The optional codes of 60_exceptions R250. -/
theorem test_fault_codes : [Fault.unsupportedOpcode, .memoryOutOfBounds, .misalignedPC].map Fault.code = [1, 2, 3] := by decide
/-- 70_reset_and_hazards R288. -/
theorem test_reported : (machine [(10#5, 6#32), (11#5, 42#32)]).reported = (6#32, 42#32) := by decide

/-! ### The host's view -/

theorem test_decodeTableWord : decodeTableWord 32 0x00006013 = some (.ori 0#5 0#5 0#12) := by decide
theorem test_decodeTableWord_none : decodeTableWord 32 0x00000073 = none := by decide
theorem test_withFetchWord : lands (step (State.reset.withFetchWord 32 0x00506513)) (Ran 4#32 10#5 5#32 []) := by decide
theorem test_reset_memory_wf : State.reset.dmem.wf := by decide
/-- The four bytes of `ori x5, x0, 3` as 95_test_vectors P3 lists them for the loader. -/
theorem test_decodeBytes : decodeBytes [0x93#8, 0x62#8, 0x30#8, 0x00#8, 0x13#8] = .ok (.ori 5#5 0#5 3#12, [0x13#8]) := by decide
theorem test_encode : encode (.sw 7#5 10#5 0xFFD#12) = 0xFEA3AEA3#32 ∧ encode (.beq 5#5 6#5 0x1FFC#13) = 0xFE628EE3#32 := by decide

/-! ### Witnesses: for every statement with hypotheses, concrete values that meet all of them -/

theorem witness_DecodeOfEncodeIsTheInstruction :
    Instr.WellFormed (.opimmSub 31#5 31#5 0xFFF#12) ∧ Instr.WellFormed (.sub 31#5 31#5 31#5 0x7F#7) ∧
    Instr.WellFormed (.branchF47 31#5 31#5 0x1FFE#13 7#3) ∧ Instr.WellFormed (.jal 31#5 0x1FFFFE#21) := by decide

theorem witness_EncodeOfDecodeIsTheWord : decode 0xFFFFFFEF#32 = .ok (.jal 31#5 0x1FFFFE#21) := by decide

theorem witness_DecodeRejectsExactlyUnsupportedOpcodes :
    (0xFFFFFFEF#32).extractLsb' 0 7 ∈ [0x13#7, 0x33#7, 0x03#7, 0x23#7, 0x37#7, 0x63#7, 0x6F#7] ∧
    (0x00000012#32).extractLsb' 0 7 ∉ [0x13#7, 0x33#7, 0x03#7, 0x23#7, 0x37#7, 0x63#7, 0x6F#7] := by decide

/-- One word in the row of opcode 0x33 with func3 2 or 3, and one just outside it. -/
theorem witness_WordDecodesToTheRowItMatches :
    0xFFFFBFB3#32 &&& (Instr.opAddF23 0#5 0#5 0#5 0#7 2#3).row.mask = (Instr.opAddF23 0#5 0#5 0#5 0#7 2#3).row.bits ∧
    0xFFFFCFB3#32 &&& (Instr.opAddF23 0#5 0#5 0#5 0#7 2#3).row.mask ≠ (Instr.opAddF23 0#5 0#5 0#5 0#7 2#3).row.bits := by
  decide

theorem witness_BytesOfAWordDecodeAsTheWord : ([] : List Byte).length < 4 ∧ [0x13#8, 0#8, 0#8].length < 4 := by decide

theorem witness_RegisterZeroReadsZero : (31#5 : RegIdx) ≠ 0#5 ∧ (0#5 : RegIdx) ≠ 31#5 := by decide

/-- The last word and the last byte of the memory, and the first address past each. -/
theorem witness_MemReadIsLittleEndianAndBounded :
    (0xFFC#32).toNat + 4 ≤ State.reset.cfg.dmemSize ∧ (0xFFF#32).toNat + 1 ≤ State.reset.cfg.dmemSize ∧
    State.reset.cfg.dmemSize < (0xFFD#32).toNat + 4 ∧ State.reset.cfg.dmemSize < (0x1000#32).toNat + 1 := by decide

theorem witness_MemWriteChangesExactlyItsBytes :
    (machine [] storeMem).dmem.wf ∧ (0xFFC#32).toNat + Width.word.bytes ≤ (machine [] storeMem).cfg.dmemSize ∧
    (0xFFF#32).toNat + Width.byte.bytes ≤ (machine [] storeMem).cfg.dmemSize ∧
    (machine [] storeMem).cfg.dmemSize < (0xFFD#32).toNat + Width.word.bytes ∧
    (machine [] storeMem).cfg.dmemSize < (0x1000#32).toNat + Width.byte.bytes := by decide

theorem witness_StoredWordLoadsBack :
    (machine [] storeMem).dmem.wf ∧ (0xFFC#32).toNat + 4 ≤ (machine [] storeMem).cfg.dmemSize := by decide

theorem witness_ByteStoreThenWordLoad :
    (machine [] storeMem).dmem.wf ∧ (0xFFF#32).toNat + 1 ≤ (machine [] storeMem).cfg.dmemSize ∧
    (0xFFC#32).toNat + 4 ≤ (machine [] storeMem).cfg.dmemSize ∧ (0xFFC#32).toNat ≤ (0xFFF#32).toNat ∧
    (0xFFF#32).toNat ≤ (0xFFC#32).toNat + 3 := by decide

/-- The two clauses of the shift meet between bit 15 and bit 16 for a shift by 16. -/
theorem witness_AluComputesTheStatedResults :
    15 < 32 ∧ 15 + (0x30#32).toNat % 32 ≤ 31 ∧ 16 < 32 ∧ ¬ 16 + (0x30#32).toNat % 32 ≤ 31 ∧ 31 < 32 := by decide

/-- The clauses of the selector at each function code, `I[30]` clear and set. -/
theorem witness_AluControlSelectsTheOperation :
    ([0#3, 1#3, 2#3, 3#3, 4#3, 5#3, 6#3, 7#3].map fun f => (aluControl .regOp f false, aluControl .regOp f true)) =
      [(.add, .sub), (.add, .add), (.add, .add), (.add, .add), (.xor, .xor), (.sra, .sra), (.or, .or), (.add, .add)] ∧
    aluControl .memAddr 5#3 true = .add ∧ aluControl .branch 0#3 false = .sub := by decide

/-- One word of each of the seven opcodes, and one of none. -/
theorem witness_ControlSignalsPerOpcode :
    ([0x0F02E293#32, 0x40B506B3#32, 0xFFC2A503#32, 0xFEA3AEA3#32, 0x12345537#32, 0xFE628EE3#32, 0x014000EF#32].map fun w =>
      (opcodeOf w, (decoderBlock w 0#32 State.reset.reg).isSome)) = supportedOpcodes.map (fun op => (op, true)) ∧
    decoderBlock 0x00000073#32 0#32 State.reset.reg = none := by decide

/-- The fields a store, a branch and a jump carry: `sw x6, 0x7C(x7)` (T-ST-10), `beq x5, x6, -4` (T-BR-3), `jal x1, +20` (S4). -/
theorem test_control_fields :
    ((decoderBlock 0x0663AE23#32 0#32 (machine [(6#5, 0x11223344#32)]).reg).map fun d => (d.ctrl.rs2Val, d.ctrl.func3)) =
      some (0x11223344#32, 2#3) ∧
    ((decoderBlock 0xFE628EE3#32 0#32 State.reset.reg).map fun d => d.ctrl.disp) = some 0xFFFFFFFC#32 ∧
    ((decoderBlock 0x014000EF#32 0#32 State.reset.reg).map fun d => d.ctrl.disp) = some 20#32 := by decide

/-- The last word of a program of three. -/
def threeWords : State := { machine [(5#5, 0x1000#32)] [] 8#32 with imem := [0#32, 0#32, 0x12345537#32] }

theorem witness_StepRunsTheDecodedInstruction :
    threeWords.status = .running ∧ threeWords.pc.toNat < 4 * threeWords.imem.length ∧ threeWords.pc.toNat % 4 = 0 ∧
    threeWords.imem[threeWords.pc.toNat / 4]? = some 0x12345537#32 ∧
    decode 0x12345537#32 = .ok (.lui 10#5 0x12345#20) := by decide

/-- The second clause too: word 1 of the three is another word. -/
theorem witness_LoadedWordRunsNext :
    decode 0x12345537#32 = .ok (.lui 10#5 0x12345#20) ∧ 1 < threeWords.imem.length ∧ 1 ≠ threeWords.pc.toNat / 4 := by decide

theorem witness_OriOrsTheSignExtendedImmediate : 0xFFF2E513#32 &&& 0x0000707F#32 = 0x00006013#32 := by decide

theorem witness_SraiShiftsArithmetically : 0xFE42D513#32 &&& 0x0000707F#32 = 0x00005013#32 := by decide

theorem witness_UnnamedOpImmAddsTheImmediate : ∀ i ∈ [Instr.opimmAdd 0#5 31#5 0x800#12, .opimmAddF1 0#5 31#5 0x800#12,
      .opimmAddF23 0#5 31#5 0x800#12 3#3, .opimmAddF7 0#5 31#5 0x800#12],
    i = .opimmAdd 0#5 31#5 0x800#12 ∨ i = .opimmAddF1 0#5 31#5 0x800#12 ∨ i = .opimmAddF23 0#5 31#5 0x800#12 3#3 ∨
      i = .opimmAddF7 0#5 31#5 0x800#12 := by decide

theorem witness_AddSubXorOfTwoRegisters :
    0xBEB50633#32 &&& 0x4000707F#32 = 0x00000033#32 ∧ 0xFEB506B3#32 &&& 0x4000707F#32 = 0x40000033#32 ∧
    0x40D64733#32 &&& 0x0000707F#32 = 0x00004033#32 := by decide

theorem witness_UnnamedOpRegResults : ∀ i ∈ [Instr.opAddF1 0#5 31#5 31#5 0x7F#7, .opAddF23 0#5 31#5 31#5 0x7F#7 3#3,
      .opAddF7 0#5 31#5 31#5 0x7F#7],
    i = .opAddF1 0#5 31#5 31#5 0x7F#7 ∨ i = .opAddF23 0#5 31#5 31#5 0x7F#7 3#3 ∨ i = .opAddF7 0#5 31#5 31#5 0x7F#7 := by decide

theorem witness_LuiLoadsTheUpperImmediate : 0xFFFFFFB7#32 &&& 0x0000007F#32 = 0x00000037#32 := by decide

/-- The last word of the memory, by each of the five loads. -/
theorem witness_LoadsReadTheWordInBounds :
    (∀ i ∈ [Instr.lb 10#5 5#5 0xFFC#12, .lw 10#5 5#5 0xFFC#12, .loadF1 10#5 5#5 0xFFC#12, .loadF3 10#5 5#5 0xFFC#12,
        .loadF47 10#5 5#5 0xFFC#12 4#3],
      i = .lb 10#5 5#5 0xFFC#12 ∨ i = .lw 10#5 5#5 0xFFC#12 ∨ i = .loadF1 10#5 5#5 0xFFC#12 ∨
        i = .loadF3 10#5 5#5 0xFFC#12 ∨ i = .loadF47 10#5 5#5 0xFFC#12 4#3) ∧
    (threeWords.reg 5#5 + (0xFFC#12 : BitVec 12).signExtend 32).toNat + 4 ≤ threeWords.cfg.dmemSize := by decide

/-- One byte further, and the last address of all. -/
theorem witness_LoadsOutOfBoundsFault :
    (∀ i ∈ [Instr.lb 0#5 5#5 0xFFD#12, .lw 0#5 5#5 0xFFD#12, .loadF1 0#5 5#5 0xFFD#12, .loadF3 0#5 5#5 0xFFD#12,
        .loadF47 0#5 5#5 0xFFD#12 7#3],
      i = .lb 0#5 5#5 0xFFD#12 ∨ i = .lw 0#5 5#5 0xFFD#12 ∨ i = .loadF1 0#5 5#5 0xFFD#12 ∨
        i = .loadF3 0#5 5#5 0xFFD#12 ∨ i = .loadF47 0#5 5#5 0xFFD#12 7#3) ∧
    threeWords.cfg.dmemSize < (threeWords.reg 5#5 + (0xFFD#12 : BitVec 12).signExtend 32).toNat + 4 ∧
    threeWords.cfg.dmemSize < (threeWords.reg 0#5 + (0xFFF#12 : BitVec 12).signExtend 32).toNat + 4 := by decide

theorem witness_SbStoresOneByte : threeWords.dmem.wf ∧
    (effectiveAddress (threeWords.reg 5#5) (immS 0xFFF#12)).toNat + 1 ≤ threeWords.cfg.dmemSize := by decide

theorem witness_WordStoresStoreFourBytes :
    (∀ i ∈ [Instr.sw 5#5 6#5 0xFFC#12, .storeF1 5#5 6#5 0xFFC#12, .storeF3 5#5 6#5 0xFFC#12, .storeF47 5#5 6#5 0xFFC#12 5#3],
      i = .sw 5#5 6#5 0xFFC#12 ∨ i = .storeF1 5#5 6#5 0xFFC#12 ∨ i = .storeF3 5#5 6#5 0xFFC#12 ∨
        i = .storeF47 5#5 6#5 0xFFC#12 5#3) ∧
    threeWords.dmem.wf ∧
    (effectiveAddress (threeWords.reg 5#5) (immS 0xFFC#12)).toNat + 4 ≤ threeWords.cfg.dmemSize := by decide

theorem witness_StoresOutOfBoundsFault :
    threeWords.cfg.dmemSize < (threeWords.reg 5#5 + (0x000#12 : BitVec 12).signExtend 32).toNat + 1 ∧
    threeWords.cfg.dmemSize < (threeWords.reg 5#5 + (0xFFD#12 : BitVec 12).signExtend 32).toNat + 4 ∧
    ∀ i ∈ [Instr.sw 5#5 6#5 0xFFD#12, .storeF1 5#5 6#5 0xFFD#12, .storeF3 5#5 6#5 0xFFD#12, .storeF47 5#5 6#5 0xFFD#12 5#3],
      i = .sw 5#5 6#5 0xFFD#12 ∨ i = .storeF1 5#5 6#5 0xFFD#12 ∨ i = .storeF3 5#5 6#5 0xFFD#12 ∨
        i = .storeF47 5#5 6#5 0xFFD#12 5#3 := by decide

/-- Both cases of the target: equal and unequal operands. -/
theorem witness_BranchesGoWhereStatedIfEqual :
    (∀ i ∈ [Instr.beq 0#5 5#5 0x1000#13, .branchF1 0#5 5#5 0x1000#13, .branchF23 0#5 5#5 0x1000#13 2#3,
        .branchF47 0#5 5#5 0x1000#13 2#3],
      i = .beq 0#5 5#5 0x1000#13 ∨ i = .branchF1 0#5 5#5 0x1000#13 ∨ i = .branchF23 0#5 5#5 0x1000#13 2#3 ∨
        i = .branchF47 0#5 5#5 0x1000#13 2#3) ∧
    threeWords.reg 0#5 ≠ threeWords.reg 5#5 ∧ threeWords.reg 0#5 = threeWords.reg 6#5 := by decide

theorem witness_LoadsAndBranchesIgnoreTheFunctionCode :
    opcodeOf 0x0002F503#32 = 0x03#7 ∧ opcodeOf 0xFE62FCE3#32 = 0x63#7 := by decide

/-- A pair of words for each opcode that has ignored bits; the last condition for a pair of word stores. -/
theorem witness_IgnoredBitsChangeNothing :
    ([(0x4042D513#32, 0x0042D513#32), (0x40B506B3#32, 0xFEB506B3#32), (0x00B55633#32, 0xFEB55633#32),
        (0x00028503#32, 0x0002C503#32), (0x00639023#32, 0x0063F023#32), (0x00628463#32, 0x0062C463#32)].all fun p =>
      supportedOpcodes.contains (opcodeOf p.1) && (p.1 ^^^ p.2) &&& ~~~ ignoredBits p.1 == 0#32 && p.1 != p.2 &&
        (opcodeOf p.1 != opcodeStore || func3Of p.2 != 0#3)) = true := by decide

theorem witness_LuiThenOriBuildsAConstant : (31#5 : RegIdx) ≠ 0#5 ∧ (0x7FF#12).getLsbD 11 = false := by decide

/-- The largest sizes. -/
theorem witness_InvariantHoldsAtReset :
    Config.Valid ⟨2 ^ 32⟩ ∧ (List.replicate maxProgramWords 0x00006013#32).length ≤ maxProgramWords :=
  ⟨by decide, by simp only [List.length_replicate, Nat.le_refl]⟩

/-- A running machine with a listed byte at the last address. -/
def lastByte : State := { machine [(5#5, 0x1000#32)] [(0xFFF, 1#8)] 4#32 with imem := [0#32, 0xFFD2A503#32] }

theorem lastByte_inv : lastByte.Inv :=
  ⟨by decide, by decide, by decide, by decide, by decide, (fun h => nomatch h), (fun _ _ _ h => nomatch h)⟩

/-- It faults: the word at 4 is `lw x10, -3(x5)`. -/
theorem lastByte_step : step lastByte = .next (lastByte.raise .memoryOutOfBounds 0xFFD#32) := of_lands (by decide)

theorem witness_EveryStepKeepsTheInvariant :
    lastByte.Inv ∧ step lastByte = .next (lastByte.raise .memoryOutOfBounds 0xFFD#32) := ⟨lastByte_inv, lastByte_step⟩

/-- The invariant holds of a halted state, and the step from it is answered. -/
theorem witness_EveryStepKeepsTheInvariant_halted :
    State.Inv (State.halt { lastByte with pc := 8#32 }) ∧
    step (State.halt { lastByte with pc := 8#32 }) = .next (State.halt { lastByte with pc := 8#32 }) :=
  ⟨⟨by decide, by decide, by decide, by decide, by decide, fun _ => by decide, (fun _ _ _ h => nomatch h)⟩, of_lands (by decide)⟩

theorem witness_StoppedStatesAreAbsorbing :
    State.reset.halt.status ≠ .running ∧ (lastByte.raise .memoryOutOfBounds 0xFFD#32).status ≠ .running := by decide

/-- Both sides of the test: pc at the end of the program, and at its last word. -/
theorem witness_HaltsExactlyAtTheEndOfTheProgram :
    (State.reset.status = .running ∧ step State.reset = .next State.reset.halt ∧ State.reset.halt.status = .halted) ∧
    threeWords.status = .running ∧
      step threeWords = .next ((threeWords.setReg 10#5 0x12345000#32).setPc 12#32) ∧ threeWords.pc.toNat = 4 * 3 - 4 :=
  ⟨⟨by decide, of_lands (by decide), by decide⟩, by decide, of_lands (by decide), by decide⟩

theorem witness_AFaultChangesOnlyTheStatus :
    lastByte.status = .running ∧ step lastByte = .next (lastByte.raise .memoryOutOfBounds 0xFFD#32) ∧
    (lastByte.raise .memoryOutOfBounds 0xFFD#32).status = .faulted .memoryOutOfBounds 4#32 0xFFD#32 :=
  ⟨by decide, lastByte_step, by decide⟩

/-- A machine at a pc that is no multiple of 4, and one at an unsupported word. -/
def atTwo : State := { lastByte with pc := 2#32 }
def atZeroWord : State := { lastByte with pc := 0#32 }

theorem witness_FaultsAreRaisedExactlyOnTheirCauses :
    (step atTwo = .next (atTwo.raise .misalignedPC 2#32) ∧ atTwo.status = .running) ∧
    (step atZeroWord = .next (atZeroWord.raise .unsupportedOpcode 0#32) ∧ atZeroWord.status = .running) ∧
    step lastByte = .next (lastByte.raise .memoryOutOfBounds 0xFFD#32) ∧ lastByte.status = .running :=
  ⟨⟨of_lands (by decide), by decide⟩, ⟨of_lands (by decide), by decide⟩, lastByte_step, by decide⟩

/-- A machine about to store the last word of its memory. -/
def storing : State :=
  { machine [(6#5, 0xAABBCCDD#32), (7#5, 0x1000#32)] [(0xFFF, 1#8)] with imem := [0xFE63AE23#32] }

/-- The machine after that store. -/
def stored : State :=
  (storing.setDmem [(0xFFC, 0xDD#8), (0xFFD, 0xCC#8), (0xFFE, 0xBB#8), (0xFFF, 0xAA#8)]).setPc 4#32

theorem storing_step : step storing = .next stored := of_lands (by decide)

theorem witness_ProgramAndConfigurationNeverChange : Reaches storing stored := .tail (.refl _) storing_step

theorem witness_OnlyStoresChangeTheDataMemory :
    storing.dmem.wf ∧ step storing = .next stored ∧ stored.dmem.read 0xFFC ≠ storing.dmem.read 0xFFC ∧
    stored.dmem.read 0xFFF ≠ storing.dmem.read 0xFFF := ⟨by decide, storing_step, by decide, by decide⟩

theorem witness_OnlyTheDestinationRegisterChanges :
    exec (.jal 31#5 8#21) threeWords = .next ((threeWords.setReg 31#5 12#32).setPc 16#32) ∧
    ((threeWords.setReg 31#5 12#32).setPc 16#32).reg 31#5 ≠ threeWords.reg 31#5 := ⟨of_lands (by decide), by decide⟩

/-- Two states that differ in a register ORI does not read; and two that fault alike. -/
theorem witness_ResultsDependOnlyOnTheSourceRegisters :
    (∀ r ∈ (Instr.ori 10#5 5#5 1#12).sources, threeWords.reg r = (threeWords.setReg 6#5 7#32).reg r) ∧
    exec (.ori 10#5 5#5 1#12) threeWords = .next ((threeWords.setReg 10#5 0x1001#32).setPc 12#32) ∧
    exec (.ori 10#5 5#5 1#12) (threeWords.setReg 6#5 7#32) =
      .next (((threeWords.setReg 6#5 7#32).setReg 10#5 0x1001#32).setPc 12#32) ∧
    exec (.lw 10#5 5#5 0xFFD#12) threeWords = .next (threeWords.raise .memoryOutOfBounds 0xFFD#32) ∧
    exec (.lw 10#5 5#5 0xFFD#12) (threeWords.setReg 6#5 7#32) =
      .next ((threeWords.setReg 6#5 7#32).raise .memoryOutOfBounds 0xFFD#32) :=
  ⟨by decide, of_lands (by decide), of_lands (by decide), of_lands (by decide), of_lands (by decide)⟩

/-- A machine of one word: a branch to the misaligned address 2, inside the program. -/
def branching : State := { State.reset with imem := [0x00000163#32] }
theorem branching_step : step branching = .next (branching.setPc 2#32) := of_lands (by decide)

/-- A machine of two words: a jump over the second. -/
def jumping : State := { State.reset with imem := [0x0080006F#32, 0x00106513#32] }
theorem jumping_step : step jumping = .next (jumping.setPc 8#32) := of_lands (by decide)

/-- The three clauses: a store, a branch and a jump. -/
theorem witness_NextPcOfEveryInstruction :
    (storing.status = .running ∧ step storing = .next stored ∧ stored.status = .running ∧
      opcodeOf storing.fetchWord ≠ 0x63#7 ∧ opcodeOf storing.fetchWord ≠ 0x6F#7) ∧
    (branching.status = .running ∧ step branching = .next (branching.setPc 2#32) ∧
      (branching.setPc 2#32).status = .running ∧ opcodeOf branching.fetchWord = 0x63#7) ∧
    jumping.status = .running ∧ step jumping = .next (jumping.setPc 8#32) ∧ (jumping.setPc 8#32).status = .running ∧
      opcodeOf jumping.fetchWord = 0x6F#7 :=
  ⟨⟨by decide, storing_step, by decide, by decide, by decide⟩, ⟨by decide, branching_step, by decide, by decide⟩,
    by decide, jumping_step, by decide, by decide⟩

theorem witness_SequentialAdvanceNeverWraps :
    threeWords.imem.length ≤ maxProgramWords ∧ threeWords.pc.toNat < 4 * threeWords.imem.length ∧
    threeWords.pc.toNat % 4 = 0 := by decide

/-- The second clause. -/
theorem witness_AMisalignedTargetFaultsAtTheNextFetch :
    branching.status = .running ∧ branching.pc.toNat % 4 = 0 ∧ step branching = .next (branching.setPc 2#32) ∧
    (branching.setPc 2#32).status = .running ∧ (branching.setPc 2#32).pc.toNat % 4 ≠ 0 ∧
    (branching.setPc 2#32).pc.toNat < 4 * (branching.setPc 2#32).imem.length :=
  ⟨by decide, by decide, branching_step, by decide, by decide, by decide⟩

/-- A machine whose one word is `w`, with x5 = 1. -/
def oneWord (w : Word) : State := { machine [(5#5, 1#32)] with imem := [w] }

/-- The first clause: a taken branch to 2, a branch to -2 that is not taken, and a JAL to 2. -/
theorem witness_AMisalignedTargetFaultsAtTheNextFetch_completes :
    ([(0x00000163#32, 2#32, 0x63#7), (0xFE028FE3#32, 0xFFFFFFFE#32, 0x63#7), (0x002002EF#32, 2#32, 0x6F#7)].all fun c =>
      (oneWord c.1).status == .running && decide ((oneWord c.1).pc.toNat < 4 * (oneWord c.1).imem.length) &&
        (oneWord c.1).pc.toNat % 4 == 0 && displacementOf (oneWord c.1).fetchWord == some c.2.1 &&
        opcodeOf (oneWord c.1).fetchWord == c.2.2) = true := by decide

theorem jumping_aligned : AlignedProgram jumping.imem := by
  intro w hw d hd
  rcases List.mem_cons.1 hw with rfl | hw
  · rw [show displacementOf 0x0080006F#32 = some 8#32 by decide] at hd
    cases hd
    decide
  · rw [List.mem_singleton.1 hw, show displacementOf 0x00106513#32 = none by decide] at hd
    cases hd

theorem witness_AlignedProgramsNeverFaultOnFetch :
    jumping.status = .running ∧ jumping.pc.toNat % 4 = 0 ∧ AlignedProgram jumping.imem ∧
    Reaches jumping (jumping.setPc 8#32) := ⟨by decide, by decide, jumping_aligned, .tail (.refl _) jumping_step⟩

theorem storing_straight : StraightLine storing.imem := fun w hw => by
  rw [List.mem_singleton.1 hw]
  decide

theorem witness_StraightLineProgramsStop :
    storing.status = .running ∧ storing.pc.toNat % 4 = 0 ∧ storing.imem.length ≤ maxProgramWords ∧
    StraightLine storing.imem := ⟨by decide, by decide, by decide, storing_straight⟩

end Sys2Proof.Tests
end

/-! Facts about the decoder: what it answers for an opcode, and the opcode of what it answers (30_encoding R81, R98). -/

namespace Sys2Proof

theorem decodeOpImm_opcode (w : Word) : (decodeOpImm w).opcode = opcodeOpImm := by
  unfold decodeOpImm
  split_ifs <;> rfl

theorem decodeOpReg_opcode (w : Word) : (decodeOpReg w).opcode = opcodeOpReg := by
  unfold decodeOpReg
  split_ifs <;> rfl

theorem decodeLoad_opcode (w : Word) : (decodeLoad w).opcode = opcodeLoad := by
  unfold decodeLoad
  split_ifs <;> rfl

theorem decodeStore_opcode (w : Word) : (decodeStore w).opcode = opcodeStore := by
  unfold decodeStore
  split_ifs <;> rfl

theorem decodeBranch_opcode (w : Word) : (decodeBranch w).opcode = opcodeBranch := by
  unfold decodeBranch
  split_ifs <;> rfl

/-- The decoder dispatches on the opcode and keeps it. -/
theorem opcode_of_decode {w : Word} {i : Instr} (h : decode w = .ok i) : i.opcode = opcodeOf w := by
  unfold decode at h
  split_ifs at h with hImm hReg hLoad hStore hLui hBranch hJal <;> cases h
  · rw [decodeOpImm_opcode, hImm]
  · rw [decodeOpReg_opcode, hReg]
  · rw [decodeLoad_opcode, hLoad]
  · rw [decodeStore_opcode, hStore]
  · exact hLui.symm
  · rw [decodeBranch_opcode, hBranch]
  · exact hJal.symm

theorem decode_of_opcodeBranch {w : Word} (h : opcodeOf w = opcodeBranch) : decode w = .ok (decodeBranch w) := by
  unfold decode
  rw [h]
  rfl

theorem decode_of_opcodeJal {w : Word} (h : opcodeOf w = opcodeJal) : decode w = .ok (.jal (rdOf w) (dispJOf w)) := by
  unfold decode
  rw [h]
  rfl

end Sys2Proof

/-! The family of 10_state: the register accessors (R21, R22) and how a step moves the pc (R28). -/

namespace Sys2Proof.Machine

variable {s t : State}

@[simp] theorem State.reg_zero (s : State) : s.reg 0#5 = 0#32 := rfl

theorem State.reg_eq_slot (s : State) {r : RegIdx} (h : r ≠ 0#5) : s.reg r = s.regs[r.toNat]'r.isLt := if_neg h

/-- Settles O9: the two cases of the read, and the rules about a read after a write. -/
theorem registerZeroReadsZero : Obligations.RegisterZeroReadsZero := fun s r v =>
  ⟨s.reg_zero, s.reg_eq_slot, s.setReg_zero v, s.setReg_reg_self r v, fun q => s.setReg_reg_ne r q v⟩

/-- A load goes to the next instruction or faults. -/
theorem completeLoad_next {rd : RegIdx} {addr : Word} (h : completeLoad rd addr s = .next t) :
    t.pc = s.pc + 4#32 ∨ t = s.raise .memoryOutOfBounds addr := by
  unfold completeLoad at h
  split at h <;> cases h
  · exact .inl rfl
  · exact .inr rfl

/-- A store goes to the next instruction or faults. -/
theorem completeStore_next {w : Width} {addr v : Word} (h : completeStore w addr v s = .next t) :
    t.pc = s.pc + 4#32 ∨ t = s.raise .memoryOutOfBounds addr := by
  unfold completeStore at h
  split at h <;> cases h
  · exact .inl rfl
  · exact .inr rfl

/-- An instruction that is neither a branch nor a jump goes to the next one, or is a load or store that faults. -/
theorem exec_sequential {i : Instr} (hb : i.opcode ≠ opcodeBranch) (hj : i.opcode ≠ opcodeJal)
    (h : exec i s = .next t) : t.pc = s.pc + 4#32 ∨ ∃ addr, t = s.raise .memoryOutOfBounds addr := by
  cases i
  case lb | lw | loadF1 | loadF3 | loadF47 => exact (completeLoad_next h).imp_right fun e => ⟨_, e⟩
  case sb | sw | storeF1 | storeF3 | storeF47 => exact (completeStore_next h).imp_right fun e => ⟨_, e⟩
  case beq | branchF1 | branchF23 | branchF47 => exact absurd rfl hb
  case jal => exact absurd rfl hj
  all_goals
    cases h
    exact .inl rfl

/-- Every branch word is the same branch-if-equal, whatever its `func3` (30_encoding R103). -/
theorem exec_decodeBranch (w : Word) (s : State) :
    exec (decodeBranch w) s = completeBranch (s.reg (rs1Of w)) (s.reg (rs2Of w)) (dispB (dispBOf w)) s := by
  unfold decodeBranch
  split_ifs <;> rfl

/-- A step from a running state to a running state has executed the instruction it fetched. -/
theorem exec_of_step_running (hs : s.status = .running) (h : step s = .next t) (ht : t.status = .running) :
    ∃ i, decode s.fetchWord = .ok i ∧ exec i s = .next t := by
  cases StepShape.of_step h with
  | stopped hn => exact absurd hs hn
  | halts => cases ht
  | misaligned => cases ht
  | unsupported => cases ht
  | runs _ _ _ i hd _ he => exact ⟨i, hd, he⟩

/-- Settles O49: the step executed the fetched instruction; its opcode tells the three cases of R28 apart. -/
theorem nextPcOfEveryInstruction : Obligations.NextPcOfEveryInstruction := by
  intro s t hs h ht
  obtain ⟨i, hd, he⟩ := exec_of_step_running hs h ht
  refine ⟨fun hb hj => ?sequential, fun hb => ?branch, fun hj => ?jump⟩
  case sequential =>
    have hop : i.opcode = opcodeOf s.fetchWord := opcode_of_decode hd
    obtain hpc | ⟨addr, rfl⟩ := exec_sequential (hop ▸ hb) (hop ▸ hj) he
    · exact hpc
    · cases ht
  case branch =>
    obtain rfl : decodeBranch s.fetchWord = i := Except.ok.inj ((decode_of_opcodeBranch hb).symm.trans hd)
    rw [exec_decodeBranch, completeBranch_eq] at he
    cases he
    simp only [State.setPc_pc, BitVec.sub_eq_iff_eq_add, BitVec.zero_add]
  case jump =>
    obtain rfl : .jal _ _ = i := Except.ok.inj ((decode_of_opcodeJal hj).symm.trans hd)
    cases he
    rfl

end Sys2Proof.Machine

/-! The family of 20_memory: what a word load sees of a byte store (R50, R51). -/

namespace Sys2Proof

open BitVec in
/-- Each byte of a little-endian word is in its place (20_memory R50). -/
theorem byteOfWord_wordOfBytes (b : Nat → Byte) {k : Nat} (hk : k < 4) :
    byteOfWord (wordOfBytes (b 0) (b 1) (b 2) (b 3)) k = b k := by
  unfold byteOfWord wordOfBytes
  match k, hk with
  | 0, _ => rw [extractLsb'_append_eq_of_add_le (by decide), extractLsb'_eq_self]
  | 1, _ =>
    rw [extractLsb'_append_eq_of_le (by decide), extractLsb'_append_eq_of_add_le (by decide), extractLsb'_eq_self]
  | 2, _ =>
    rw [extractLsb'_append_eq_of_le (by decide), extractLsb'_append_eq_of_le (by decide),
      extractLsb'_append_eq_of_add_le (by decide), extractLsb'_eq_self]
  | 3, _ =>
    rw [extractLsb'_append_eq_of_le (by decide), extractLsb'_append_eq_of_le (by decide),
      extractLsb'_append_eq_of_le (by decide), extractLsb'_eq_self]

/-- The low byte of a word, zero-extended. -/
theorem byteOfWord_zero_zeroExtend (v : Word) : (byteOfWord v 0).zeroExtend 32 = v &&& 0xFF#32 := by
  refine BitVec.eq_of_toNat_eq ?_
  have hmask : v.toNat &&& 255 = v.toNat % 256 := Nat.and_two_pow_sub_one_eq_mod v.toNat 8
  simp only [byteOfWord, BitVec.toNat_setWidth, BitVec.extractLsb'_toNat, BitVec.toNat_and, BitVec.toNat_ofNat,
    Nat.mul_zero, Nat.shiftRight_zero, Nat.reducePow, Nat.reduceMod, hmask]
  omega

namespace Machine

/-- Byte `k` of the word at `a` is the byte at `a + k` (20_memory R50). -/
theorem Memory.byteOfWord_readWord (m : Memory) (a : Nat) {k : Nat} (hk : k < 4) :
    byteOfWord (m.readWord a) k = m.read (a + k) :=
  byteOfWord_wordOfBytes (fun j => m.read (a + j)) hk

/-- The rule of R51: of the word at `b`, a byte written at `a` replaces the one byte whose address is `a`. -/
theorem Memory.byteOfWord_readWord_write (m : Memory) (a b : Nat) (c : Byte) {k : Nat} (hk : k < 4) (h : m.wf) :
    byteOfWord ((m.write a c).readWord b) k = if b + k = a then c else byteOfWord (m.readWord b) k := by
  rw [Memory.byteOfWord_readWord _ b hk, Memory.byteOfWord_readWord m b hk, Memory.read_write m a c _ h]

theorem State.memRead_byte (s : State) (addr : Word) (h : s.InBounds .byte addr) :
    s.memRead .byte addr = some ((s.dmem.read addr.toNat).zeroExtend 32) := by
  simp only [State.memRead, if_pos h]

/-- Settles O13: the byte stored, `k = a - b`, and the three others are the two cases of the rule above. -/
theorem byteStoreThenWordLoad : Obligations.ByteStoreThenWordLoad := by
  intro s a b v hwf ha hb hle hge
  refine ⟨_, _, _, s.memWrite_byte a v ha, s.memRead_word b hb, State.memRead_word _ b hb, ?byteAtA, ?stored, ?untouched⟩
  case byteAtA =>
    rw [State.memRead_byte _ a (by exact ha), State.setDmem_dmem, Memory.read_write _ _ _ _ hwf, if_pos rfl,
      byteOfWord_zero_zeroExtend]
  case stored =>
    have hk : a.toNat - b.toNat < 4 := by omega
    exact (Memory.byteOfWord_readWord_write _ _ _ _ hk hwf).trans (if_pos (by omega))
  case untouched =>
    intro k hk hne
    exact (Memory.byteOfWord_readWord_write _ _ _ _ hk hwf).trans (if_neg (by omega))

end Machine
end Sys2Proof

/-! The family of 30_encoding: `func3` chooses among rows of one meaning (R101, R103). -/

namespace Sys2Proof

theorem decode_of_opcodeLoad {w : Word} (h : opcodeOf w = opcodeLoad) : decode w = .ok (decodeLoad w) := by
  unfold decode
  rw [h]
  rfl

namespace Machine

/-- Every load word is the same load, whatever its `func3` (30_encoding R101). -/
theorem exec_decodeLoad (w : Word) (s : State) :
    exec (decodeLoad w) s = exec (.lw (rdOf w) (rs1Of w) (immIOf w)) s := by
  unfold decodeLoad
  split_ifs <;> rfl

/-- Settles O34: the decoder dispatches on the opcode, and the rows of each of the two opcodes have one meaning. -/
theorem loadsAndBranchesIgnoreTheFunctionCode : Obligations.LoadsAndBranchesIgnoreTheFunctionCode := by
  refine ⟨fun w hload => ?load, fun w hbranch => ?branch⟩
  case load => exact ⟨decodeLoad w, decode_of_opcodeLoad hload, exec_decodeLoad w⟩
  case branch =>
    refine ⟨decodeBranch w, decode_of_opcodeBranch hbranch, fun s => ⟨exec_decodeBranch w s, ?_⟩⟩
    exact (exec_decodeBranch w s).trans (completeBranch_eq s _ _ _)

end Machine
end Sys2Proof

/-! The family of 40_datapath_blocks: what the ALU computes (R151 to R155) and what selects its operation (R144). -/

namespace Sys2Proof.Machine

/-! The ALU, one operation at a time. -/

theorem alu_or_getLsbD (a b : Word) (i : Nat) : (alu a b .or).getLsbD i = (a.getLsbD i || b.getLsbD i) :=
  BitVec.getLsbD_or

theorem alu_xor_getLsbD (a b : Word) (i : Nat) : (alu a b .xor).getLsbD i = (a.getLsbD i != b.getLsbD i) :=
  BitVec.getLsbD_xor

theorem alu_add_toNat (a b : Word) : (alu a b .add).toNat = (a.toNat + b.toNat) % 2 ^ 32 :=
  BitVec.toNat_add a b

theorem alu_add_eq_ofInt (a b : Word) : alu a b .add = BitVec.ofInt 32 (a.toInt + b.toInt) := by
  rw [BitVec.ofInt_add, BitVec.ofInt_toInt, BitVec.ofInt_toInt]
  rfl

theorem alu_sub_toNat (a b : Word) : ((alu a b .sub).toNat : Int) = ((a.toNat : Int) - b.toNat) % 2 ^ 32 := by
  have hsub : (alu a b .sub).toNat = (2 ^ 32 - b.toNat + a.toNat) % 2 ^ 32 := BitVec.toNat_sub a b
  have hb : b.toNat < 2 ^ 32 := b.isLt
  omega

/-- The form of a subtracter with an adder: the complement and a carry in. -/
theorem alu_sub_eq_add_not (a b : Word) : alu a b .sub = a + ~~~b + 1#32 := by
  rw [BitVec.add_assoc, ← BitVec.neg_eq_not_add, ← BitVec.sub_eq_add_neg]
  rfl

theorem alu_sub_eq_zero_iff (a b : Word) : alu a b .sub = 0#32 ↔ a = b :=
  sub_eq_zero

/-- The ALU takes the shift amount modulo 32. -/
theorem alu_sra (a b : Word) : alu a b .sra = sra a (b.toNat % 32) := by
  have hamount : (b.extractLsb' 0 5).toNat = b.toNat % 32 := BitVec.extractLsb'_toNat 0 5 b
  exact congrArg (sra a) hamount

/-- Each bit of an arithmetic shift comes from `n` places above, or from the sign bit (R155). -/
theorem sra_getLsbD (a : Word) (n : Nat) {i : Nat} (hi : i < 32) :
    (sra a n).getLsbD i = if i + n ≤ 31 then a.getLsbD (i + n) else a.getLsbD 31 := by
  unfold sra
  rw [BitVec.getLsbD_sshiftRight, BitVec.msb_eq_getLsbD_last, Nat.add_comm n i]
  simp only [Nat.not_le.2 hi, decide_false, Bool.not_false, Bool.true_and, Nat.lt_succ_iff, Nat.add_one_sub_one]

/-- Settles O14, one operation at a time. -/
theorem aluComputesTheStatedResults : Obligations.AluComputesTheStatedResults := by
  intro a b
  refine ⟨fun i _ => alu_or_getLsbD a b i, ⟨alu_add_toNat a b, alu_add_eq_ofInt a b⟩,
    ⟨alu_sub_toNat a b, alu_sub_eq_add_not a b, alu_sub_eq_zero_iff a b⟩, fun i _ => alu_xor_getLsbD a b i, ?sra⟩
  case sra =>
    intro i hi
    rw [alu_sra]
    exact sra_getLsbD a _ hi

/-! The ALU Control Generator, one operation class at a time. -/

@[simp] theorem aluControl_memAddr (f : BitVec 3) (b : Bool) : aluControl .memAddr f b = .add := rfl

@[simp] theorem aluControl_branch (f : BitVec 3) (b : Bool) : aluControl .branch f b = .sub := rfl

/-- Settles O15: an equation for each class, and for the register operations one for each function code. -/
theorem aluControlSelectsTheOperation : Obligations.AluControlSelectsTheOperation := by
  intro c f b
  refine ⟨?memAddr, ?branch, ?regOp⟩
  case memAddr =>
    rintro rfl
    exact aluControl_memAddr f b
  case branch =>
    rintro rfl
    exact aluControl_branch f b
  case regOp =>
    rintro rfl
    refine ⟨?add, ?sub, ?xor, ?sra, ?or, ?otherwise⟩
    case add | sub =>
      rintro rfl rfl
      rfl
    case xor | sra | or =>
      rintro rfl
      rfl
    case otherwise => rintro (rfl | rfl | rfl | rfl) <;> rfl

end Sys2Proof.Machine

/-! The family of 42_op_imm: the named rows ORI and SRAI (R190, R191). -/

namespace Sys2Proof

/-- A field that the mask keeps whole is, in a word that matches, the field of the match. -/
theorem field_of_masked {w mask bits : Word} (h : w &&& mask = bits) (start len : Nat)
    (hmask : mask.extractLsb' start len = BitVec.allOnes len) :
    w.extractLsb' start len = bits.extractLsb' start len := by
  rw [← h, BitVec.extractLsb'_and, hmask, BitVec.and_allOnes]

theorem decode_of_opcodeOpImm {w : Word} (h : opcodeOf w = opcodeOpImm) : decode w = .ok (decodeOpImm w) := by
  unfold decode
  rw [h]
  rfl

theorem decodeOpImm_of_func3_five {w : Word} (h : func3Of w = 5#3) :
    decodeOpImm w = .srai (rdOf w) (rs1Of w) (shamtOf w) (func7Of w) := by
  unfold decodeOpImm
  rw [h]
  rfl

theorem decodeOpImm_of_func3_six {w : Word} (h : func3Of w = 6#3) :
    decodeOpImm w = .ori (rdOf w) (rs1Of w) (immIOf w) := by
  unfold decodeOpImm
  rw [h]
  rfl

namespace Machine

/-- Write-back and clock tick change the destination and the pc, and nothing else (41_cycle_sequencer R165, R166). -/
theorem writesRegister_setReg_setPc (s : State) (rd : RegIdx) (v nextPc : Word) :
    WritesRegister s ((s.setReg rd v).setPc nextPc) rd v nextPc where
  pc := rfl
  written := s.setReg_reg_self rd v
  otherRegs := by
    rintro r (hr | rfl)
    · exact s.setReg_reg_ne rd r v hr
    · rfl
  memory a := congrArg (Memory.read · a) (s.setReg_dmem rd v)
  program := s.setReg_imem rd v
  status := s.setReg_status rd v
  config := s.setReg_cfg rd v

theorem completeReg_writesRegister (s : State) (rd : RegIdx) (v : Word) :
    ∃ t, completeReg rd v s = .next t ∧ WritesRegister s t rd v (s.pc + 4#32) :=
  ⟨_, completeReg_eq s rd v, writesRegister_setReg_setPc s rd v _⟩

/-- The arithmetic right shift is the floor of the division by a power of two (40_datapath_blocks R155). -/
theorem sra_toInt (a : Word) (n : Nat) : (sra a n).toInt = a.toInt / 2 ^ n := by
  unfold sra
  rw [BitVec.toInt_sshiftRight, Int.shiftRight_eq_div_pow, Nat.cast_pow, Nat.cast_ofNat]

/-- Settles O20: the mask fixes opcode and `func3`, and the result is a register completion. -/
theorem oriOrsTheSignExtendedImmediate : Obligations.OriOrsTheSignExtendedImmediate := by
  refine ⟨fun w h => ?decoding, fun rd rs1 imm s => ?execution⟩
  case decoding =>
    have hopcode : opcodeOf w = opcodeOpImm := field_of_masked h 0 7 (by decide)
    have hfunc3 : func3Of w = 6#3 := field_of_masked h 12 3 (by decide)
    rw [decode_of_opcodeOpImm hopcode, decodeOpImm_of_func3_six hfunc3]
    rfl
  case execution => exact completeReg_writesRegister s rd (s.reg rs1 ||| immI imm)

/-- Settles O21: the mask fixes opcode and `func3`, and the result is the floor division `sra_toInt`. -/
theorem sraiShiftsArithmetically : Obligations.SraiShiftsArithmetically := by
  refine ⟨fun w h => ?decoding, fun rd rs1 shamt _ s => ?execution⟩
  case decoding =>
    have hopcode : opcodeOf w = opcodeOpImm := field_of_masked h 0 7 (by decide)
    have hfunc3 : func3Of w = 5#3 := field_of_masked h 12 3 (by decide)
    rw [decode_of_opcodeOpImm hopcode, decodeOpImm_of_func3_five hfunc3]
    rfl
  case execution =>
    obtain ⟨t, hexec, hwrites⟩ := completeReg_writesRegister s rd (sra (s.reg rs1) shamt.toNat)
    exact ⟨t, _, hexec, sra_toInt _ _, hwrites⟩

end Machine
end Sys2Proof

/-! The family of 43_op_reg: the named rows ADD, SUB and XOR (R200 to R202). -/

namespace Sys2Proof

/-- A bit that the mask keeps is, in a word that matches, the bit of the match. -/
theorem bit_of_masked {w mask bits : Word} (h : w &&& mask = bits) (i : Nat) (hmask : mask.getLsbD i = true) :
    w.getLsbD i = bits.getLsbD i := by
  rw [← h, BitVec.getLsbD_and, hmask, Bool.and_true]

theorem decode_of_opcodeOpReg {w : Word} (h : opcodeOf w = opcodeOpReg) : decode w = .ok (decodeOpReg w) := by
  unfold decode
  rw [h]
  rfl

theorem decodeOpReg_of_func7b5_clear {w : Word} (hfunc3 : func3Of w = 0#3) (hbit : func7b5Of w = false) :
    decodeOpReg w = .add (rdOf w) (rs1Of w) (rs2Of w) (func7Of w) := by
  unfold decodeOpReg
  rw [hfunc3, hbit]
  rfl

theorem decodeOpReg_of_func7b5_set {w : Word} (hfunc3 : func3Of w = 0#3) (hbit : func7b5Of w = true) :
    decodeOpReg w = .sub (rdOf w) (rs1Of w) (rs2Of w) (func7Of w) := by
  unfold decodeOpReg
  rw [hfunc3, hbit]
  rfl

theorem decodeOpReg_of_func3_four {w : Word} (hfunc3 : func3Of w = 4#3) :
    decodeOpReg w = .xor (rdOf w) (rs1Of w) (rs2Of w) (func7Of w) := by
  unfold decodeOpReg
  rw [hfunc3]
  rfl

namespace Machine

/-- Settles O24: the masks fix opcode and `func3`, and for ADD and SUB bit 30; each result is a register completion. -/
theorem addSubXorOfTwoRegisters : Obligations.AddSubXorOfTwoRegisters := by
  refine ⟨fun w h => ?decodeAdd, fun w h => ?decodeSub, fun w h => ?decodeXor, fun rd rs1 rs2 func7 s => ?execution⟩
  case decodeAdd =>
    have hopcode : opcodeOf w = opcodeOpReg := field_of_masked h 0 7 (by decide)
    have hfunc3 : func3Of w = 0#3 := field_of_masked h 12 3 (by decide)
    have hbit : func7b5Of w = false := bit_of_masked h 30 (by decide)
    exact (decode_of_opcodeOpReg hopcode).trans (congrArg Except.ok (decodeOpReg_of_func7b5_clear hfunc3 hbit))
  case decodeSub =>
    have hopcode : opcodeOf w = opcodeOpReg := field_of_masked h 0 7 (by decide)
    have hfunc3 : func3Of w = 0#3 := field_of_masked h 12 3 (by decide)
    have hbit : func7b5Of w = true := bit_of_masked h 30 (by decide)
    exact (decode_of_opcodeOpReg hopcode).trans (congrArg Except.ok (decodeOpReg_of_func7b5_set hfunc3 hbit))
  case decodeXor =>
    have hopcode : opcodeOf w = opcodeOpReg := field_of_masked h 0 7 (by decide)
    have hfunc3 : func3Of w = 4#3 := field_of_masked h 12 3 (by decide)
    exact (decode_of_opcodeOpReg hopcode).trans (congrArg Except.ok (decodeOpReg_of_func3_four hfunc3))
  case execution =>
    exact ⟨completeReg_writesRegister s rd _, completeReg_writesRegister s rd _, completeReg_writesRegister s rd _⟩

end Machine
end Sys2Proof

/-! The family of 46_lui: LUI (R230). -/

namespace Sys2Proof

theorem decode_of_opcodeLui {w : Word} (h : opcodeOf w = opcodeLui) : decode w = .ok (.lui (rdOf w) (immUOf w)) := by
  unfold decode
  rw [h]
  rfl

namespace Machine

/-- The extended immediate of a U-format word is the word with its low twelve bits cleared (30_encoding R94): the word and
the mask are cut at bit 12, and each part is masked alone. -/
theorem immU_immUOf (w : Word) : immU (immUOf w) = w &&& 0xFFFFF000#32 := by
  have hword : w.extractLsb' 12 20 ++ w.extractLsb' 0 12 = w := BitVec.extractLsb'_append_extractLsb'
  have hmask : BitVec.allOnes 20 ++ 0#12 = 0xFFFFF000#32 := by decide
  calc immU (immUOf w)
    _ = (w.extractLsb' 12 20 &&& BitVec.allOnes 20) ++ (w.extractLsb' 0 12 &&& 0#12) := by
      rw [BitVec.and_allOnes, BitVec.and_zero, immU, immUOf]
    _ = (w.extractLsb' 12 20 ++ w.extractLsb' 0 12) &&& (BitVec.allOnes 20 ++ 0#12) := BitVec.and_append.symm
    _ = w &&& 0xFFFFF000#32 := by rw [hword, hmask]

/-- LUI writes its immediate over twelve zeros (46_lui R230). -/
theorem exec_lui_writesRegister (rd : RegIdx) (imm : BitVec 20) (s : State) :
    ∃ t, exec (.lui rd imm) s = .next t ∧ WritesRegister s t rd (immU imm) (s.pc + 4#32) :=
  completeReg_writesRegister s rd (immU imm)

/-- Settles O26: the mask fixes the opcode, and the two forms of the result are one word. -/
theorem luiLoadsTheUpperImmediate : Obligations.LuiLoadsTheUpperImmediate := by
  refine ⟨fun w h => ⟨?decoding, fun s => ?ofWord⟩, exec_lui_writesRegister⟩
  case decoding =>
    have hopcode : opcodeOf w = opcodeLui := field_of_masked h 0 7 (by decide)
    exact decode_of_opcodeLui hopcode
  case ofWord =>
    rw [← immU_immUOf w]
    exact exec_lui_writesRegister (rdOf w) (immUOf w) s

end Machine
end Sys2Proof

/-! The family of 60_exceptions: what a fault changes (R256), and that a stopped machine stays as it is (R171). -/

namespace Sys2Proof.Machine

variable {s t : State}

/-- Halted and faulted states are absorbing (41_cycle_sequencer R171). -/
theorem step_of_not_running (h : s.status ≠ .running) : step s = .next s := by
  obtain ⟨t, hstep, hshape⟩ := step_shape s
  cases hshape with
  | stopped => exact hstep
  | halts hs => exact absurd hs h
  | misaligned hs => exact absurd hs h
  | unsupported hs => exact absurd hs h
  | runs hs => exact absurd hs h

/-- A run from a state that steps to itself stays there. -/
theorem Reaches.eq_of_step_self (hself : step s = .next s) (h : Reaches s t) : t = s := by
  refine h.invariant (P := (· = s)) (fun u v hu hstep => ?_) rfl
  subst hu
  exact Host.Outcome.next.inj (hstep.symm.trans hself)

theorem raisesFault_raise (s : State) (kind : Fault) (info : Word) : RaisesFault s (s.raise kind info) kind info :=
  ⟨rfl, rfl, fun _ => rfl, fun _ => rfl, rfl, rfl⟩

/-- An instruction keeps the status, or raises MemoryOutOfBounds (60_exceptions R253). -/
theorem exec_status_eq_or_raise {i : Instr} (h : exec i s = .next t) :
    t.status = s.status ∨ ∃ addr, t = s.raise .memoryOutOfBounds addr := by
  cases ExecShape.of_exec h with
  | register rd v => exact .inl (s.setReg_status rd v)
  | pcOnly => exact .inl rfl
  | store w addr v u hw =>
    obtain ⟨-, m, rfl, -⟩ := State.memWrite_cases s u w addr v hw
    exact .inl rfl
  | outOfBounds _ addr => exact .inr ⟨addr, rfl⟩

/-- A cycle of a running machine that ends in a fault has raised it, whatever its kind (60_exceptions R256). -/
theorem exists_eq_raise_of_step_faulted (hs : s.status = .running) (h : step s = .next t) {kind : Fault} {p info : Word}
    (ht : t.status = .faulted kind p info) : ∃ k a, t = s.raise k a := by
  cases StepShape.of_step h with
  | stopped hn => exact absurd hs hn
  | halts => cases ht
  | misaligned => exact ⟨_, _, rfl⟩
  | unsupported => exact ⟨_, _, rfl⟩
  | runs _ _ _ i _ _ he =>
    obtain hkept | ⟨addr, hraise⟩ := exec_status_eq_or_raise he
    · rw [hkept, hs] at ht
      cases ht
    · exact ⟨_, addr, hraise⟩

/-- Settles O43: the state is a raise of the one before, and its status, no longer running, makes it absorbing. -/
theorem aFaultChangesOnlyTheStatus : Obligations.AFaultChangesOnlyTheStatus := by
  intro s t kind p info hs h ht
  have hself : step t = .next t := step_of_not_running (by simp [ht])
  obtain ⟨k, a, rfl⟩ := exists_eq_raise_of_step_faulted hs h ht
  cases ht
  exact ⟨rfl, raisesFault_raise s kind info, rfl, rfl, fun _ => Reaches.eq_of_step_self hself⟩

end Sys2Proof.Machine

/-! The family of 30_encoding: words and instructions determine each other (R84 to R89, R98, R104, R106). -/

namespace Sys2Proof

theorem decode_of_opcodeStore {w : Word} (h : opcodeOf w = opcodeStore) : decode w = .ok (decodeStore w) := by
  unfold decode
  rw [h]
  rfl

/-! The checks of `Instr.wf`, as propositions. -/

theorem isFunc3TwoOrThree_iff {f : BitVec 3} : isFunc3TwoOrThree f = true ↔ f = 2#3 ∨ f = 3#3 := by
  simp only [isFunc3TwoOrThree, Bool.or_eq_true, beq_iff_eq]

theorem isFunc3FourToSeven_iff {f : BitVec 3} :
    isFunc3FourToSeven f = true ↔ f = 4#3 ∨ f = 5#3 ∨ f = 6#3 ∨ f = 7#3 := by
  simp only [isFunc3FourToSeven, Bool.or_eq_true, beq_iff_eq, or_assoc]

/-- The decoder reads back the fields the encoder placed; `func3`, and bit 30 where it is 0, choose the row. -/
theorem decode_encode {i : Instr} (h : i.WellFormed) : decode (encode i) = .ok i := by
  cases i
  case ori | srai | opimmXor | opimmAddF1 | opimmAddF7 => simp [encode, decode_of_opcodeOpImm, decodeOpImm]
  case opimmAdd imm =>
    have hbit : imm.getLsbD 10 = false := Bool.eq_false_of_not_eq_true' h
    simp [encode, decode_of_opcodeOpImm, decodeOpImm, func7b5Of_eq_immI, hbit, -BitVec.getLsbD_eq_getElem]
  case opimmSub imm =>
    have hbit : imm.getLsbD 10 = true := h
    simp [encode, decode_of_opcodeOpImm, decodeOpImm, func7b5Of_eq_immI, hbit, -BitVec.getLsbD_eq_getElem]
  case opimmAddF23 =>
    obtain rfl | rfl := isFunc3TwoOrThree_iff.1 h <;> simp [encode, decode_of_opcodeOpImm, decodeOpImm]
  case add func7 =>
    have hbit : func7.getLsbD 5 = false := Bool.eq_false_of_not_eq_true' h
    simp [encode, decode_of_opcodeOpReg, decodeOpReg, func7b5Of_eq_func7, hbit, -BitVec.getLsbD_eq_getElem]
  case sub func7 =>
    have hbit : func7.getLsbD 5 = true := h
    simp [encode, decode_of_opcodeOpReg, decodeOpReg, func7b5Of_eq_func7, hbit, -BitVec.getLsbD_eq_getElem]
  case xor | opSra | opOr | opAddF1 | opAddF7 => simp [encode, decode_of_opcodeOpReg, decodeOpReg]
  case opAddF23 =>
    obtain rfl | rfl := isFunc3TwoOrThree_iff.1 h <;> simp [encode, decode_of_opcodeOpReg, decodeOpReg]
  case lb | lw | loadF1 | loadF3 => simp [encode, decode_of_opcodeLoad, decodeLoad]
  case loadF47 =>
    obtain rfl | rfl | rfl | rfl := isFunc3FourToSeven_iff.1 h <;> simp [encode, decode_of_opcodeLoad, decodeLoad]
  case sb | sw | storeF1 | storeF3 => simp [encode, decode_of_opcodeStore, decodeStore]
  case storeF47 =>
    obtain rfl | rfl | rfl | rfl := isFunc3FourToSeven_iff.1 h <;> simp [encode, decode_of_opcodeStore, decodeStore]
  case lui => simp [encode, decode_of_opcodeLui]
  case beq disp | branchF1 disp =>
    have heven : disp.getLsbD 0 = false := Bool.eq_false_of_not_eq_true' h
    simp [encode, decode_of_opcodeBranch, decodeBranch, encodeB_disp _ _ _ _ _ heven]
  case branchF23 disp func3 =>
    obtain ⟨hdisp, hfunc3⟩ := Bool.and_eq_true_iff.1 h
    have heven : disp.getLsbD 0 = false := Bool.eq_false_of_not_eq_true' hdisp
    obtain rfl | rfl := isFunc3TwoOrThree_iff.1 hfunc3 <;>
      simp [encode, decode_of_opcodeBranch, decodeBranch, encodeB_disp _ _ _ _ _ heven]
  case branchF47 disp func3 =>
    obtain ⟨hdisp, hfunc3⟩ := Bool.and_eq_true_iff.1 h
    have heven : disp.getLsbD 0 = false := Bool.eq_false_of_not_eq_true' hdisp
    obtain rfl | rfl | rfl | rfl := isFunc3FourToSeven_iff.1 hfunc3 <;>
      simp [encode, decode_of_opcodeBranch, decodeBranch, encodeB_disp _ _ _ _ _ heven]
  case jal disp =>
    have heven : disp.getLsbD 0 = false := Bool.eq_false_of_not_eq_true' h
    simp [encode, decode_of_opcodeJal, encodeJ_disp _ _ _ heven]

/-- Settles O1: the two sides of the round trip meet in the fields of the word. -/
theorem decodeOfEncodeIsTheInstruction : Obligations.DecodeOfEncodeIsTheInstruction := fun _ => decode_encode

/-! The other direction: a word is put together again from the fields of its format. -/

/-- Two fields side by side are one field. -/
theorem join_fields (w : Word) {start len₁ mid len₂ : Nat} (h : mid = start + len₁) :
    w.extractLsb' mid len₂ ++ w.extractLsb' start len₁ = w.extractLsb' start (len₂ + len₁) :=
  BitVec.extractLsb'_append_extractLsb'_eq_extractLsb' h

theorem encodeR_fields (w : Word) :
    encodeR (func7Of w) (rs2Of w) (rs1Of w) (func3Of w) (rdOf w) (opcodeOf w) = w := by
  simp only [encodeR, func7Of, rs2Of, rs1Of, func3Of, rdOf, opcodeOf]
  rw [join_fields w, join_fields w, join_fields w, join_fields w, join_fields w, field_self] <;> rfl

theorem encodeI_fields (w : Word) : encodeI (immIOf w) (rs1Of w) (func3Of w) (rdOf w) (opcodeOf w) = w := by
  simp only [encodeI, immIOf, rs1Of, func3Of, rdOf, opcodeOf]
  rw [join_fields w, join_fields w, join_fields w, join_fields w, field_self] <;> rfl

theorem encodeU_fields (w : Word) : encodeU (immUOf w) (rdOf w) (opcodeOf w) = w := by
  simp only [encodeU, immUOf, rdOf, opcodeOf]
  rw [join_fields w, join_fields w, field_self] <;> rfl

theorem encodeS_fields (w : Word) : encodeS (immSOf w) (rs2Of w) (rs1Of w) (func3Of w) (opcodeOf w) = w := by
  have hhi : (immSOf w).extractLsb' 5 7 = func7Of w := by
    rw [immSOf, field_high _ _ _ _ (by decide), field_self, func7Of]
  have hlo : (immSOf w).extractLsb' 0 5 = rdOf w := by
    rw [immSOf, field_low _ _ _ _ (by decide), field_self, rdOf]
  rw [encodeS, hhi, hlo]
  exact encodeR_fields w

/-- Bits 12 and 10:5 of `disp_B` are `func7`, bits 4:1 and 11 are `rd` (30_encoding R87, R93). -/
theorem encodeB_fields (w : Word) : encodeB (dispBOf w) (rs2Of w) (rs1Of w) (func3Of w) (opcodeOf w) = w := by
  refine BitVec.eq_of_getLsbD_eq fun i hi => ?_
  simp only [encodeB, dispBOf, rs2Of, rs1Of, func3Of, opcodeOf, BitVec.getLsbD_append, BitVec.getLsbD_extractLsb']
  interval_cases i <;> simp [-BitVec.getLsbD_eq_getElem]

theorem encodeJ_fields (w : Word) : encodeJ (dispJOf w) (rdOf w) (opcodeOf w) = w := by
  refine BitVec.eq_of_getLsbD_eq fun i hi => ?_
  simp only [encodeJ, dispJOf, rdOf, opcodeOf, BitVec.getLsbD_append, BitVec.getLsbD_extractLsb']
  interval_cases i <;> simp [-BitVec.getLsbD_eq_getElem]

theorem dispBOf_even (w : Word) : (dispBOf w).getLsbD 0 = false := by
  rw [dispBOf, BitVec.getLsbD_append]
  rfl

theorem dispJOf_even (w : Word) : (dispJOf w).getLsbD 0 = false := by
  rw [dispJOf, BitVec.getLsbD_append]
  rfl

/-- What is left of the function codes when those of the other rows are taken away. -/
theorem func3_two_or_three {f : BitVec 3} (h0 : f ≠ 0#3) (h1 : f ≠ 1#3) (h4 : f ≠ 4#3) (h5 : f ≠ 5#3) (h6 : f ≠ 6#3)
    (h7 : f ≠ 7#3) : f = 2#3 ∨ f = 3#3 := by
  revert f
  decide

theorem func3_four_to_seven {f : BitVec 3} (h0 : f ≠ 0#3) (h1 : f ≠ 1#3) (h2 : f ≠ 2#3) (h3 : f ≠ 3#3) :
    f = 4#3 ∨ f = 5#3 ∨ f = 6#3 ∨ f = 7#3 := by
  revert f
  decide

theorem wellFormed_decodeOpImm (w : Word) : (decodeOpImm w).WellFormed := by
  unfold decodeOpImm
  split_ifs with h0 hbit h1 h4 h5 h6 h7
  · exact (func7b5Of_eq_immI w).symm.trans hbit
  · simp only [Instr.WellFormed, Instr.wf, ← func7b5Of_eq_immI, hbit, Bool.not_false]
  · rfl
  · rfl
  · rfl
  · rfl
  · rfl
  · exact isFunc3TwoOrThree_iff.2 (func3_two_or_three h0 h1 h4 h5 h6 h7)

theorem wellFormed_decodeOpReg (w : Word) : (decodeOpReg w).WellFormed := by
  unfold decodeOpReg
  split_ifs with h0 hbit h1 h4 h5 h6 h7
  · exact (func7b5Of_eq_func7 w).symm.trans hbit
  · simp only [Instr.WellFormed, Instr.wf, ← func7b5Of_eq_func7, hbit, Bool.not_false]
  · rfl
  · rfl
  · rfl
  · rfl
  · rfl
  · exact isFunc3TwoOrThree_iff.2 (func3_two_or_three h0 h1 h4 h5 h6 h7)

theorem wellFormed_decodeLoad (w : Word) : (decodeLoad w).WellFormed := by
  unfold decodeLoad
  split_ifs with h0 h1 h2 h3
  · rfl
  · rfl
  · rfl
  · rfl
  · exact isFunc3FourToSeven_iff.2 (func3_four_to_seven h0 h1 h2 h3)

theorem wellFormed_decodeStore (w : Word) : (decodeStore w).WellFormed := by
  unfold decodeStore
  split_ifs with h0 h1 h2 h3
  · rfl
  · rfl
  · rfl
  · rfl
  · exact isFunc3FourToSeven_iff.2 (func3_four_to_seven h0 h1 h2 h3)

theorem wellFormed_decodeBranch (w : Word) : (decodeBranch w).WellFormed := by
  unfold decodeBranch
  split_ifs with h0 h1 h23
  all_goals simp only [Instr.WellFormed, Instr.wf, dispBOf_even, Bool.not_false, Bool.true_and]
  · exact isFunc3TwoOrThree_iff.2 h23
  · exact isFunc3FourToSeven_iff.2 (func3_four_to_seven h0 h1 (h23 <| .inl ·) (h23 <| .inr ·))

/-- The operands of opcode 0x13 are the fields of the I format; those of SRAI are the fields of the R format (R191). -/
theorem encode_decodeOpImm {w : Word} (h : opcodeOf w = opcodeOpImm) : encode (decodeOpImm w) = w := by
  have hI := encodeI_fields w
  have hR := encodeR_fields w
  rw [h] at hI hR
  unfold decodeOpImm
  split_ifs with h0 _ h1 h4 h5 h6 h7
  · rwa [h0] at hI
  · rwa [h0] at hI
  · rwa [h1] at hI
  · rwa [h4] at hI
  · rwa [h5] at hR
  · rwa [h6] at hI
  · rwa [h7] at hI
  · exact hI

theorem encode_decodeOpReg {w : Word} (h : opcodeOf w = opcodeOpReg) : encode (decodeOpReg w) = w := by
  have hR := encodeR_fields w
  rw [h] at hR
  unfold decodeOpReg
  split_ifs with h0 _ h1 h4 h5 h6 h7
  · rwa [h0] at hR
  · rwa [h0] at hR
  · rwa [h1] at hR
  · rwa [h4] at hR
  · rwa [h5] at hR
  · rwa [h6] at hR
  · rwa [h7] at hR
  · exact hR

theorem encode_decodeLoad {w : Word} (h : opcodeOf w = opcodeLoad) : encode (decodeLoad w) = w := by
  have hI := encodeI_fields w
  rw [h] at hI
  unfold decodeLoad
  split_ifs with h0 h1 h2 h3
  · rwa [h0] at hI
  · rwa [h1] at hI
  · rwa [h2] at hI
  · rwa [h3] at hI
  · exact hI

theorem encode_decodeStore {w : Word} (h : opcodeOf w = opcodeStore) : encode (decodeStore w) = w := by
  have hS := encodeS_fields w
  rw [h] at hS
  unfold decodeStore
  split_ifs with h0 h1 h2 h3
  · rwa [h0] at hS
  · rwa [h1] at hS
  · rwa [h2] at hS
  · rwa [h3] at hS
  · exact hS

theorem encode_decodeBranch {w : Word} (h : opcodeOf w = opcodeBranch) : encode (decodeBranch w) = w := by
  have hB := encodeB_fields w
  rw [h] at hB
  unfold decodeBranch
  split_ifs with h0 h1 h23
  · rwa [h0] at hB
  · rwa [h1] at hB
  · exact hB
  · exact hB

/-- Settles O2: for each opcode, the fields the decoder reads are all of the word. -/
theorem encodeOfDecodeIsTheWord : Obligations.EncodeOfDecodeIsTheWord := by
  intro w i h
  unfold decode at h
  split_ifs at h with hImm hReg hLoad hStore hLui hBranch hJal <;> cases h
  · exact ⟨wellFormed_decodeOpImm w, encode_decodeOpImm hImm⟩
  · exact ⟨wellFormed_decodeOpReg w, encode_decodeOpReg hReg⟩
  · exact ⟨wellFormed_decodeLoad w, encode_decodeLoad hLoad⟩
  · exact ⟨wellFormed_decodeStore w, encode_decodeStore hStore⟩
  · exact ⟨rfl, (congrArg (encodeU _ _) hLui).symm.trans (encodeU_fields w)⟩
  · exact ⟨wellFormed_decodeBranch w, encode_decodeBranch hBranch⟩
  · exact ⟨congrArg (! ·) (dispJOf_even w), (congrArg (encodeJ _ _) hJal).symm.trans (encodeJ_fields w)⟩

/-! The decoder rejects a word for its opcode alone (R105). -/

theorem exists_decode_of_supported {w : Word} (h : opcodeOf w ∈ supportedOpcodes) : ∃ i, decode w = .ok i := by
  unfold decode
  split_ifs with hImm hReg hLoad hStore hLui hBranch hJal
  case neg => simp [supportedOpcodes, hImm, hReg, hLoad, hStore, hLui, hBranch, hJal] at h
  all_goals exact ⟨_, rfl⟩

theorem decode_of_unsupported {w : Word} (h : opcodeOf w ∉ supportedOpcodes) :
    decode w = .error (.unsupportedOpcode w) := by
  unfold decode
  split_ifs with hImm hReg hLoad hStore hLui hBranch hJal
  case neg => rfl
  all_goals simp [supportedOpcodes, *] at h

theorem unsupported_of_decode_error {w : Word} {r : Reject} (h : decode w = .error r) :
    opcodeOf w ∉ supportedOpcodes := by
  intro hmem
  obtain ⟨i, hi⟩ := exists_decode_of_supported hmem
  cases hi.symm.trans h

/-- Settles O3: the opcode is supported or not, and the decoder keeps a supported one. -/
theorem decodeRejectsExactlyUnsupportedOpcodes : Obligations.DecodeRejectsExactlyUnsupportedOpcodes := by
  intro w
  by_cases hmem : opcodeOf w ∈ supportedOpcodes
  · obtain ⟨i, hi⟩ := exists_decode_of_supported hmem
    exact .inl ⟨hmem, i, hi, opcode_of_decode hi⟩
  · exact .inr ⟨hmem, decode_of_unsupported hmem⟩

/-! The rows of spec/opcode_table.json constrain opcode, `func3` and `func7`. -/

theorem encodeR_and_encodeR (f7 m7 : BitVec 7) (rs2 m2 rs1 m1 : RegIdx) (f3 m3 : BitVec 3) (rd md : RegIdx)
    (op mop : BitVec 7) : encodeR f7 rs2 rs1 f3 rd op &&& encodeR m7 m2 m1 m3 md mop =
      encodeR (f7 &&& m7) (rs2 &&& m2) (rs1 &&& m1) (f3 &&& m3) (rd &&& md) (op &&& mop) := by
  simp only [encodeR, ← BitVec.and_append]

/-- A word under a mask that keeps the opcode and leaves the register fields free. -/
theorem and_mask_eq {w : Word} (m7 : BitVec 7) (m3 : BitVec 3) {b7 : BitVec 7} {b3 : BitVec 3} {op : BitVec 7}
    (h7 : func7Of w &&& m7 = b7) (h3 : func3Of w &&& m3 = b3) (hop : opcodeOf w = op) :
    w &&& encodeR m7 0#5 0#5 m3 0#5 0x7F#7 = encodeR b7 0#5 0#5 b3 0#5 op := by
  have hones : opcodeOf w &&& 0x7F#7 = opcodeOf w := BitVec.and_allOnes
  conv_lhs => rw [← encodeR_fields w, encodeR_and_encodeR, h7, h3, hones, hop]
  simp only [BitVec.and_zero]

/-- The rows that fix `func3`, and those that leave its low bit or its two low bits free. -/
theorem and_mask_func3 {w : Word} {f : BitVec 3} {op : BitVec 7} (h3 : func3Of w = f) (hop : opcodeOf w = op) :
    w &&& 0x0000707F#32 = encodeR 0#7 0#5 0#5 f 0#5 op :=
  and_mask_eq 0#7 7#3 BitVec.and_zero (h3 ▸ BitVec.and_allOnes) hop

theorem and_mask_two_or_three {w : Word} {op : BitVec 7} (h3 : func3Of w = 2#3 ∨ func3Of w = 3#3)
    (hop : opcodeOf w = op) : w &&& 0x0000607F#32 = encodeR 0#7 0#5 0#5 2#3 0#5 op :=
  and_mask_eq 0#7 6#3 BitVec.and_zero (by obtain h | h := h3 <;> rw [h] <;> rfl) hop

theorem and_mask_four_to_seven {w : Word} {op : BitVec 7}
    (h3 : func3Of w = 4#3 ∨ func3Of w = 5#3 ∨ func3Of w = 6#3 ∨ func3Of w = 7#3)
    (hop : opcodeOf w = op) : w &&& 0x0000407F#32 = encodeR 0#7 0#5 0#5 4#3 0#5 op :=
  and_mask_eq 0#7 4#3 BitVec.and_zero (by obtain h | h | h | h := h3 <;> rw [h] <;> rfl) hop

/-- The rows that fix bit 30 beside `func3`. -/
theorem and_mask_bit30 {w : Word} {f : BitVec 3} {op : BitVec 7} (h3 : func3Of w = f) (hop : opcodeOf w = op) :
    w &&& 0x4000707F#32 = encodeR (if func7b5Of w then 0x20#7 else 0#7) 0#5 0#5 f 0#5 op := by
  refine and_mask_eq 0x20#7 7#3 ?_ (h3 ▸ BitVec.and_allOnes) hop
  rw [func7b5Of_eq_func7]
  generalize func7Of w = f7
  revert f7
  decide

theorem and_mask_opcode {w : Word} {op : BitVec 7} (hop : opcodeOf w = op) :
    w &&& 0x0000007F#32 = encodeR 0#7 0#5 0#5 0#3 0#5 op :=
  and_mask_eq 0#7 0#3 BitVec.and_zero BitVec.and_zero hop

theorem and_row_decodeOpImm {w : Word} (h : opcodeOf w = opcodeOpImm) :
    w &&& (decodeOpImm w).row.mask = (decodeOpImm w).row.bits := by
  unfold decodeOpImm
  split_ifs with h0 hbit h1 h4 h5 h6 h7
  · exact (and_mask_bit30 h0 h).trans (by rw [hbit]; rfl)
  · exact (and_mask_bit30 h0 h).trans (by rw [if_neg hbit]; rfl)
  · exact and_mask_func3 h1 h
  · exact and_mask_func3 h4 h
  · exact and_mask_func3 h5 h
  · exact and_mask_func3 h6 h
  · exact and_mask_func3 h7 h
  · exact and_mask_two_or_three (func3_two_or_three h0 h1 h4 h5 h6 h7) h

theorem and_row_decodeOpReg {w : Word} (h : opcodeOf w = opcodeOpReg) :
    w &&& (decodeOpReg w).row.mask = (decodeOpReg w).row.bits := by
  unfold decodeOpReg
  split_ifs with h0 hbit h1 h4 h5 h6 h7
  · exact (and_mask_bit30 h0 h).trans (by rw [hbit]; rfl)
  · exact (and_mask_bit30 h0 h).trans (by rw [if_neg hbit]; rfl)
  · exact and_mask_func3 h1 h
  · exact and_mask_func3 h4 h
  · exact and_mask_func3 h5 h
  · exact and_mask_func3 h6 h
  · exact and_mask_func3 h7 h
  · exact and_mask_two_or_three (func3_two_or_three h0 h1 h4 h5 h6 h7) h

theorem and_row_decodeLoad {w : Word} (h : opcodeOf w = opcodeLoad) :
    w &&& (decodeLoad w).row.mask = (decodeLoad w).row.bits := by
  unfold decodeLoad
  split_ifs with h0 h1 h2 h3
  · exact and_mask_func3 h0 h
  · exact and_mask_func3 h1 h
  · exact and_mask_func3 h2 h
  · exact and_mask_func3 h3 h
  · exact and_mask_four_to_seven (func3_four_to_seven h0 h1 h2 h3) h

theorem and_row_decodeStore {w : Word} (h : opcodeOf w = opcodeStore) :
    w &&& (decodeStore w).row.mask = (decodeStore w).row.bits := by
  unfold decodeStore
  split_ifs with h0 h1 h2 h3
  · exact and_mask_func3 h0 h
  · exact and_mask_func3 h1 h
  · exact and_mask_func3 h2 h
  · exact and_mask_func3 h3 h
  · exact and_mask_four_to_seven (func3_four_to_seven h0 h1 h2 h3) h

theorem and_row_decodeBranch {w : Word} (h : opcodeOf w = opcodeBranch) :
    w &&& (decodeBranch w).row.mask = (decodeBranch w).row.bits := by
  unfold decodeBranch
  split_ifs with h0 h1 h23
  · exact and_mask_func3 h0 h
  · exact and_mask_func3 h1 h
  · exact and_mask_two_or_three h23 h
  · exact and_mask_four_to_seven (func3_four_to_seven h0 h1 (h23 <| .inl ·) (h23 <| .inr ·)) h

/-- A decoded word matches the row of its instruction. -/
theorem and_row_of_decode {w : Word} {i : Instr} (h : decode w = .ok i) : w &&& i.row.mask = i.row.bits := by
  unfold decode at h
  split_ifs at h with hImm hReg hLoad hStore hLui hBranch hJal <;> cases h
  · exact and_row_decodeOpImm hImm
  · exact and_row_decodeOpReg hReg
  · exact and_row_decodeLoad hLoad
  · exact and_row_decodeStore hStore
  · exact and_mask_opcode hLui
  · exact and_row_decodeBranch hBranch
  · exact and_mask_opcode hJal

/-- One instruction of each of the 32 rows. -/
def rowRepresentatives : List Instr :=
  [.ori 0#5 0#5 0#12, .srai 0#5 0#5 0#5 0#7, .opimmAdd 0#5 0#5 0#12, .opimmSub 0#5 0#5 0#12, .opimmXor 0#5 0#5 0#12,
    .opimmAddF1 0#5 0#5 0#12, .opimmAddF23 0#5 0#5 0#12 0#3, .opimmAddF7 0#5 0#5 0#12, .add 0#5 0#5 0#5 0#7,
    .sub 0#5 0#5 0#5 0#7, .xor 0#5 0#5 0#5 0#7, .opSra 0#5 0#5 0#5 0#7, .opOr 0#5 0#5 0#5 0#7, .opAddF1 0#5 0#5 0#5 0#7,
    .opAddF23 0#5 0#5 0#5 0#7 0#3, .opAddF7 0#5 0#5 0#5 0#7, .lb 0#5 0#5 0#12, .lw 0#5 0#5 0#12, .loadF1 0#5 0#5 0#12,
    .loadF3 0#5 0#5 0#12, .loadF47 0#5 0#5 0#12 0#3, .sb 0#5 0#5 0#12, .sw 0#5 0#5 0#12, .storeF1 0#5 0#5 0#12,
    .storeF3 0#5 0#5 0#12, .storeF47 0#5 0#5 0#12 0#3, .lui 0#5 0#20, .beq 0#5 0#5 0#13, .branchF1 0#5 0#5 0#13,
    .branchF23 0#5 0#5 0#13 0#3, .branchF47 0#5 0#5 0#13 0#3, .jal 0#5 0#21]

/-- The table of opcode_table.json. -/
def tableRows : List OpcodeRow := rowRepresentatives.map Instr.row

theorem Instr.row_mem_tableRows (i : Instr) : i.row ∈ tableRows := by
  refine List.elem_iff.1 ?_
  cases i <;> rfl

/-- Two rows of the table differ in a bit that both masks keep. -/
theorem tableRows_disjoint : ∀ r ∈ tableRows, ∀ q ∈ tableRows, r.bits &&& q.mask = q.bits &&& r.mask → r = q := by
  decide

theorem Instr.row_eq_of_common_word {i j : Instr} {w : Word} (hi : w &&& i.row.mask = i.row.bits)
    (hj : w &&& j.row.mask = j.row.bits) : i.row = j.row := by
  refine tableRows_disjoint _ i.row_mem_tableRows _ j.row_mem_tableRows ?_
  rw [← hi, ← hj]
  ac_rfl

theorem tableRows_opcode : ∀ r ∈ tableRows, opcodeOf r.mask = BitVec.allOnes 7 ∧ opcodeOf r.bits ∈ supportedOpcodes := by
  decide

/-- Every row fixes the opcode. -/
theorem supported_of_and_row {i : Instr} {w : Word} (h : w &&& i.row.mask = i.row.bits) :
    opcodeOf w ∈ supportedOpcodes := by
  obtain ⟨hmask, hbits⟩ := tableRows_opcode _ i.row_mem_tableRows
  have hopcode : opcodeOf w = opcodeOf i.row.bits := field_of_masked h 0 7 hmask
  exact hopcode ▸ hbits

/-- Settles O4: a word that matches a row decodes, to an instruction whose row the word matches too. -/
theorem wordDecodesToTheRowItMatches : Obligations.WordDecodesToTheRowItMatches := by
  refine fun w j => ⟨fun hj => ?decodes, ?follows⟩
  case decodes =>
    obtain ⟨i, hi⟩ := exists_decode_of_supported (supported_of_and_row hj)
    exact ⟨i, hi, Instr.row_eq_of_common_word (and_row_of_decode hi) hj⟩
  case follows =>
    rintro ⟨i, hi, hrow⟩
    exact hrow ▸ and_row_of_decode hi

/-- Settles O5: the decoder computes on each word. -/
theorem knownWordsDecode : Obligations.KnownWordsDecode :=
  ⟨rfl, rfl, rfl, rfl, rfl, rfl, rfl, rfl, rfl, rfl, rfl⟩

/-- A word is put together again from its bytes (20_memory R50). -/
theorem wordOfBytes_bytes (w : Word) :
    wordOfBytes (w.extractLsb' 0 8) (w.extractLsb' 8 8) (w.extractLsb' 16 8) (w.extractLsb' 24 8) = w := by
  rw [wordOfBytes, join_fields w, join_fields w, join_fields w, field_self] <;> rfl

/-- Settles O6: the byte decoder decodes the word its four bytes are put together to. -/
theorem bytesOfAWordDecodeAsTheWord : Obligations.BytesOfAWordDecodeAsTheWord := by
  refine ⟨fun w rest => ?four, fun bytes hlen => ?fewer⟩
  case four =>
    cases h : decode w <;> simp only [decodeBytes, wordOfBytes_bytes, h]
  case fewer =>
    match bytes, hlen with
    | [], _ => rfl
    | [_], _ => rfl
    | [_, _], _ => rfl
    | [_, _, _], _ => rfl
    | _ :: _ :: _ :: _ :: _, hlen => exact absurd hlen (by simp)

end Sys2Proof

/-! The immediates of 30_encoding as operands (R90 to R96). -/

namespace Sys2Proof.Machine

theorem sext_toInt {n : Nat} (v : BitVec n) (hn : n ≤ 32) : (sext v).toInt = v.toInt :=
  BitVec.toInt_signExtend_of_le hn

/-- Flipping a bit that is clear adds its weight. -/
theorem xor_twoPow_of_clear (x : Word) {k : Nat} (h : x.getLsbD k = false) :
    x ^^^ BitVec.twoPow 32 k = x + BitVec.twoPow 32 k := by
  have hdisjoint : x &&& BitVec.twoPow 32 k = 0#32 := by simp [BitVec.and_twoPow, h]
  rw [BitVec.add_eq_or_of_and_eq_zero _ _ hdisjoint]
  refine BitVec.eq_of_getLsbD_eq fun i hi => ?_
  simp only [BitVec.getLsbD_xor, BitVec.getLsbD_or, BitVec.getLsbD_twoPow]
  by_cases hik : k = i
  · subst hik
    rw [h, Bool.false_xor, Bool.false_or]
  · simp only [hik, decide_false, Bool.and_false, Bool.xor_false, Bool.or_false]

/-- Flipping a bit that is set subtracts its weight. -/
theorem xor_twoPow_of_set (x : Word) {k : Nat} (hk : k < 32) (h : x.getLsbD k = true) :
    x ^^^ BitVec.twoPow 32 k = x - BitVec.twoPow 32 k := by
  have hclear : (x ^^^ BitVec.twoPow 32 k).getLsbD k = false := by
    rw [BitVec.getLsbD_xor, BitVec.getLsbD_twoPow, h, decide_eq_true hk]
    simp
  have hback := xor_twoPow_of_clear _ hclear
  rw [BitVec.xor_assoc, BitVec.xor_self, BitVec.xor_zero] at hback
  exact (BitVec.sub_eq_iff_eq_add.2 hback).symm

/-- The two's-complement extension flips the sign bit and subtracts its weight. -/
theorem sext_eq_flip_sub {k : Nat} (v : BitVec (k + 1)) (hk : k < 32) :
    sext v = (v.zeroExtend 32 ^^^ BitVec.twoPow 32 k) - BitVec.twoPow 32 k := by
  have hsign : (v.zeroExtend 32).getLsbD k = v.msb := by
    simp [BitVec.msb_eq_getLsbD_last, hk]
  unfold sext
  cases hmsb : v.msb with
  | false =>
    rw [xor_twoPow_of_clear _ (hsign.trans hmsb), BitVec.add_sub_cancel]
    exact BitVec.signExtend_eq_setWidth_of_msb_false hmsb
  | true =>
    rw [xor_twoPow_of_set _ hk (hsign.trans hmsb)]
    have hset : 2 ^ k ≤ v.toNat := of_decide_eq_true (v.msb_eq_decide.symm.trans hmsb)
    have hlt : v.toNat < 2 ^ (k + 1) := v.isLt
    have hfits : 2 ^ (k + 1) ≤ 2 ^ 32 := Nat.pow_le_pow_right (by decide) hk
    refine BitVec.eq_of_toNat_eq ?_
    rw [BitVec.toNat_signExtend, if_pos hmsb]
    simp only [BitVec.toNat_sub, BitVec.toNat_setWidth, BitVec.toNat_twoPow]
    rw [Nat.pow_succ 2 k] at *
    omega

theorem and_mask_zeroExtend {n : Nat} (v : BitVec n) (hn : n ≤ 32) :
    v.zeroExtend 32 &&& BitVec.ofNat 32 (2 ^ n - 1) = v.zeroExtend 32 := by
  refine BitVec.eq_of_toNat_eq ?_
  have hv : v.toNat < 2 ^ n := v.isLt
  have hpow : 2 ^ n ≤ 2 ^ 32 := Nat.pow_le_pow_right (by decide) hn
  rw [BitVec.toNat_and, BitVec.toNat_setWidth, BitVec.toNat_ofNat, Nat.mod_eq_of_lt (by omega),
    Nat.mod_eq_of_lt (by omega), Nat.and_two_pow_sub_one_eq_mod, Nat.mod_eq_of_lt hv]

/-- The algorithm of 30_encoding R96 is the two's-complement extension, for fields of any width. -/
theorem sext_eq_sextByMask {n : Nat} (v : BitVec n) (hpos : 0 < n) (hn : n ≤ 32) :
    sext v = sextByMask n (v.zeroExtend 32) := by
  obtain ⟨k, rfl⟩ := Nat.exists_eq_succ_of_ne_zero hpos.ne'
  have hweight : BitVec.ofNat 32 (2 ^ k) = BitVec.twoPow 32 k :=
    BitVec.eq_of_toNat_eq (by rw [BitVec.toNat_ofNat, BitVec.toNat_twoPow])
  rw [sextByMask, and_mask_zeroExtend v hn, Nat.succ_sub_one, hweight]
  exact sext_eq_flip_sub v hn

/-- Settles O7: the facts above at the three widths of the formats. -/
theorem signExtensionIsTheMaskAlgorithm : Obligations.SignExtensionIsTheMaskAlgorithm :=
  ⟨fun v => ⟨sext_eq_sextByMask v (by decide) (by decide), sext_toInt v (by decide)⟩,
    fun v => ⟨sext_eq_sextByMask v (by decide) (by decide), sext_toInt v (by decide)⟩,
    fun v => ⟨sext_eq_sextByMask v (by decide) (by decide), sext_toInt v (by decide)⟩⟩

/-! The ranges of the immediates (30_encoding R90 to R95). -/

/-- A field with a trailing zero bit has an even signed value. -/
theorem toInt_append_zero_even {n : Nat} (v : BitVec n) : (v ++ 0#1).toInt % 2 = 0 := by
  have hdouble : (v ++ 0#1).toNat = 2 * v.toNat := by
    rw [BitVec.toNat_append, Nat.shiftLeft_eq]
    simp [Nat.mul_comm]
  have hpow : ((2 ^ (n + 1) : Nat) : Int) = 2 * (2 ^ n : Nat) := by
    rw [Nat.pow_succ, Nat.mul_comm, Nat.cast_mul, Nat.cast_ofNat]
  rw [BitVec.toInt_eq_msb_cond, hdouble, hpow]
  split_ifs <;> omega

/-- Settles O8: each operand has the signed value of its field, which the width of the field bounds. -/
theorem immediatesStayInTheirRanges : Obligations.ImmediatesStayInTheirRanges := by
  intro w
  have hImm : (immI (immIOf w)).toInt = (immIOf w).toInt := sext_toInt _ (by decide)
  have hImmS : (immS (immSOf w)).toInt = (immSOf w).toInt := sext_toInt _ (by decide)
  have hB : (dispB (dispBOf w)).toInt = (dispBOf w).toInt := sext_toInt _ (by decide)
  have hJ : (dispJ (dispJOf w)).toInt = (dispJOf w).toInt := sext_toInt _ (by decide)
  have hBeven : (dispBOf w).toInt % 2 = 0 := toInt_append_zero_even _
  have hJeven : (dispJOf w).toInt % 2 = 0 := toInt_append_zero_even _
  rw [hImm, hImmS, hB, hJ]
  refine ⟨⟨?_, ?_⟩, ⟨?_, ?_⟩, ⟨?_, ?_, hBeven⟩, ⟨?_, ?_, hJeven⟩, ?immU, ?shamt⟩
  case immU =>
    rw [immU, BitVec.toNat_append, Nat.shiftLeft_eq]
    simp
  case shamt =>
    have h : (shamtOf w).toNat < 2 ^ 5 := (shamtOf w).isLt
    rw [shamtWord, BitVec.toNat_setWidth]
    omega
  · exact BitVec.le_toInt (immIOf w)
  · exact Int.le_sub_one_of_lt (BitVec.toInt_lt (x := immIOf w))
  · exact BitVec.le_toInt (immSOf w)
  · exact Int.le_sub_one_of_lt (BitVec.toInt_lt (x := immSOf w))
  · exact BitVec.le_toInt (dispBOf w)
  · have := BitVec.toInt_lt (x := dispBOf w)
    omega
  · exact BitVec.le_toInt (dispJOf w)
  · have := BitVec.toInt_lt (x := dispJOf w)
    omega

end Sys2Proof.Machine

/-! The family of 40_datapath_blocks and 41_cycle_sequencer: the block-level machine does what the meanings say. -/

namespace Sys2Proof.Machine

/-! The rows of one opcode have one meaning, chosen by the function code as the ALU Control Generator does it (R104, R144). -/

/-- The ALU shifts by a zero-extended shift amount (30_encoding R91, 40_datapath_blocks R155). -/
theorem alu_sra_shamtWord (a : Word) (shamt : BitVec 5) : alu a (shamtWord shamt) .sra = sra a shamt.toNat := by
  have hlt : shamt.toNat < 32 := shamt.isLt
  rw [alu_sra, shamtWord, BitVec.toNat_setWidth, Nat.mod_eq_of_lt (Nat.lt_trans hlt (by decide)), Nat.mod_eq_of_lt hlt]

/-- The selector where `func3` does not name another operation. -/
theorem aluControl_regOp_of_otherwise {f : BitVec 3} (b : Bool) (h0 : f ≠ 0#3) (h4 : f ≠ 4#3) (h5 : f ≠ 5#3)
    (h6 : f ≠ 6#3) : aluControl .regOp f b = .add := by
  simp only [aluControl, h0, h4, h5, h6, if_false]

/-- Operand 2 of opcode 0x13: the shift amount for `func3` 5 and the immediate otherwise (40_datapath_blocks R122). -/
def opImmOperand (w : Word) : Word := if func3Of w = 5#3 then shamtWord (shamtOf w) else immI (immIOf w)

theorem opImmOperand_of_shift {w : Word} (h : func3Of w = 5#3) : opImmOperand w = shamtWord (shamtOf w) := if_pos h

theorem opImmOperand_of_no_shift {w : Word} (h : func3Of w ≠ 5#3) : opImmOperand w = immI (immIOf w) := if_neg h

theorem exec_decodeOpImm (w : Word) (s : State) :
    exec (decodeOpImm w) s = completeReg (rdOf w)
      (alu (s.reg (rs1Of w)) (opImmOperand w) (aluControl .regOp (func3Of w) (func7b5Of w))) s := by
  by_cases h5 : func3Of w = 5#3
  case pos =>
    rw [decodeOpImm_of_func3_five h5, opImmOperand_of_shift h5, h5]
    exact congrArg (completeReg (rdOf w) · s) (alu_sra_shamtWord _ _).symm
  rw [opImmOperand_of_no_shift h5]
  unfold decodeOpImm
  split_ifs with h0 hbit h1 h4 h6 h7
  · rw [h0, hbit]; rfl
  · rw [h0, Bool.eq_false_of_not_eq_true hbit]; rfl
  · rw [h1]; rfl
  · rw [h4]; rfl
  · rw [h6]; rfl
  · rw [h7]; rfl
  · rw [aluControl_regOp_of_otherwise _ h0 h4 h5 h6]; rfl

theorem exec_decodeOpReg (w : Word) (s : State) :
    exec (decodeOpReg w) s = completeReg (rdOf w)
      (alu (s.reg (rs1Of w)) (s.reg (rs2Of w)) (aluControl .regOp (func3Of w) (func7b5Of w))) s := by
  unfold decodeOpReg
  split_ifs with h0 hbit h1 h4 h5 h6 h7
  · rw [h0, hbit]; rfl
  · rw [h0, Bool.eq_false_of_not_eq_true hbit]; rfl
  · rw [h1]; rfl
  · rw [h4]; rfl
  · rw [h5]; rfl
  · rw [h6]; rfl
  · rw [h7]; rfl
  · rw [aluControl_regOp_of_otherwise _ h0 h4 h5 h6]; rfl

/-- The width of a store is a byte if `func3` is 0 and a word otherwise (30_encoding R102). -/
def storeWidth (w : Word) : Width := if func3Of w = 0#3 then .byte else .word

theorem exec_decodeStore (w : Word) (s : State) :
    exec (decodeStore w) s = completeStore (storeWidth w)
      (effectiveAddress (s.reg (rs1Of w)) (immS (immSOf w))) (s.reg (rs2Of w)) s := by
  unfold decodeStore storeWidth
  split_ifs <;> rfl

/-! The Instruction Decoder, one opcode at a time (40_datapath_blocks R122 to R133). -/

section Decoder
variable {I : Word} (pc : Word) (x : RegIdx → Word)

theorem decoderBlock_of_opcodeOpImm (h : opcodeOf I = opcodeOpImm) : decoderBlock I pc x = some
    { op1 := x (rs1Of I), op2 := opImmOperand I, rd := rdOf I
      ctrl := { baseSignals (x (rs2Of I)) (func3Of I) with regWrite := true, aluSrcImm := true } } := by
  unfold decoderBlock
  rw [h]
  rfl

theorem decoderBlock_of_opcodeOpReg (h : opcodeOf I = opcodeOpReg) : decoderBlock I pc x = some
    { op1 := x (rs1Of I), op2 := x (rs2Of I), rd := rdOf I
      ctrl := { baseSignals (x (rs2Of I)) (func3Of I) with regWrite := true } } := by
  unfold decoderBlock
  rw [h]
  rfl

theorem decoderBlock_of_opcodeLoad (h : opcodeOf I = opcodeLoad) : decoderBlock I pc x = some
    { op1 := x (rs1Of I), op2 := immI (immIOf I), rd := rdOf I
      ctrl := { baseSignals (x (rs2Of I)) (func3Of I) with
        regWrite := true, aluSrcImm := true, memRead := true, memToReg := true, aluClass := .memAddr } } := by
  unfold decoderBlock
  rw [h]
  rfl

theorem decoderBlock_of_opcodeStore (h : opcodeOf I = opcodeStore) : decoderBlock I pc x = some
    { op1 := x (rs1Of I), op2 := immS (immSOf I), rd := rdOf I
      ctrl := { baseSignals (x (rs2Of I)) (func3Of I) with
        aluSrcImm := true, memWrite := true, aluClass := .memAddr } } := by
  unfold decoderBlock
  rw [h]
  rfl

theorem decoderBlock_of_opcodeLui (h : opcodeOf I = opcodeLui) : decoderBlock I pc x = some
    { op1 := 0#32, op2 := immU (immUOf I), rd := rdOf I
      ctrl := { baseSignals (x (rs2Of I)) (func3Of I) with
        regWrite := true, aluSrcImm := true, aluClass := .memAddr } } := by
  unfold decoderBlock
  rw [h]
  rfl

theorem decoderBlock_of_opcodeBranch (h : opcodeOf I = opcodeBranch) : decoderBlock I pc x = some
    { op1 := x (rs1Of I), op2 := x (rs2Of I), rd := rdOf I
      ctrl := { baseSignals (x (rs2Of I)) (func3Of I) with
        branch := true, aluClass := .branch, disp := dispB (dispBOf I) } } := by
  unfold decoderBlock
  rw [h]
  rfl

theorem decoderBlock_of_opcodeJal (h : opcodeOf I = opcodeJal) : decoderBlock I pc x = some
    { op1 := pc, op2 := dispJ (dispJOf I), rd := rdOf I
      ctrl := { baseSignals (x (rs2Of I)) (func3Of I) with
        regWrite := true, jump := true, aluSrcImm := true, disp := dispJ (dispJOf I) } } := by
  unfold decoderBlock
  rw [h]
  rfl

theorem decoderBlock_of_unsupported (h : opcodeOf I ∉ supportedOpcodes) : decoderBlock I pc x = none := by
  simp only [supportedOpcodes, List.mem_cons, List.not_mem_nil, or_false, not_or] at h
  obtain ⟨hImm, hReg, hLoad, hStore, hLui, hBranch, hJal⟩ := h
  unfold decoderBlock
  exact (if_neg hImm).trans <| (if_neg hReg).trans <| (if_neg hLoad).trans <| (if_neg hStore).trans <|
    (if_neg hLui).trans <| (if_neg hBranch).trans (if_neg hJal)

end Decoder

/-- The seven opcodes (30_encoding R98). -/
theorem opcode_cases {w : Word} (h : opcodeOf w ∈ supportedOpcodes) :
    opcodeOf w = opcodeOpImm ∨ opcodeOf w = opcodeOpReg ∨ opcodeOf w = opcodeLoad ∨ opcodeOf w = opcodeStore ∨
      opcodeOf w = opcodeLui ∨ opcodeOf w = opcodeBranch ∨ opcodeOf w = opcodeJal := by
  simpa only [supportedOpcodes, List.mem_cons, List.not_mem_nil, or_false] using h

theorem decoderBlock_eq_none_iff (I pc : Word) (x : RegIdx → Word) :
    decoderBlock I pc x = none ↔ opcodeOf I ∉ supportedOpcodes := by
  refine ⟨fun hnone hmem => ?_, decoderBlock_of_unsupported pc x⟩
  obtain h | h | h | h | h | h | h := opcode_cases hmem
  · cases hnone.symm.trans (decoderBlock_of_opcodeOpImm pc x h)
  · cases hnone.symm.trans (decoderBlock_of_opcodeOpReg pc x h)
  · cases hnone.symm.trans (decoderBlock_of_opcodeLoad pc x h)
  · cases hnone.symm.trans (decoderBlock_of_opcodeStore pc x h)
  · cases hnone.symm.trans (decoderBlock_of_opcodeLui pc x h)
  · cases hnone.symm.trans (decoderBlock_of_opcodeBranch pc x h)
  · cases hnone.symm.trans (decoderBlock_of_opcodeJal pc x h)

/-- Settles O16: each opcode has one record of signals. -/
theorem controlSignalsPerOpcode : Obligations.ControlSignalsPerOpcode := by
  refine fun w pc x => ⟨decoderBlock_eq_none_iff w pc x, fun d hd => ?_⟩
  have hmem : opcodeOf w ∈ supportedOpcodes := by
    by_contra hnot
    cases hd.symm.trans (decoderBlock_of_unsupported pc x hnot)
  obtain h | h | h | h | h | h | h := opcode_cases hmem
  · cases hd.symm.trans (decoderBlock_of_opcodeOpImm pc x h)
    simp [baseSignals, h, opcodeOpImm, rdOf, func3Of, rs2Of]
  · cases hd.symm.trans (decoderBlock_of_opcodeOpReg pc x h)
    simp [baseSignals, h, opcodeOpReg, rdOf, func3Of, rs2Of]
  · cases hd.symm.trans (decoderBlock_of_opcodeLoad pc x h)
    simp [baseSignals, h, opcodeLoad, rdOf, func3Of, rs2Of]
  · cases hd.symm.trans (decoderBlock_of_opcodeStore pc x h)
    simp [baseSignals, h, opcodeStore, rdOf, func3Of, rs2Of]
  · cases hd.symm.trans (decoderBlock_of_opcodeLui pc x h)
    simp [baseSignals, h, opcodeLui, rdOf, func3Of, rs2Of]
  · cases hd.symm.trans (decoderBlock_of_opcodeBranch pc x h)
    simp [baseSignals, h, opcodeBranch, rdOf, func3Of, rs2Of]
  · cases hd.symm.trans (decoderBlock_of_opcodeJal pc x h)
    simp [baseSignals, h, opcodeJal, rdOf, func3Of, rs2Of]

end Sys2Proof.Machine

namespace Sys2Proof.Machine

/-! The block-level cycle, one opcode at a time: it ends as the completion of that opcode does. -/

section Cycle
variable {I : Word} (s : State) {d : DecoderOut}

/-- A cycle whose memory phase answers writes back and ticks (41_cycle_sequencer R164 to R166). -/
theorem blockCycle_completes {t : State} {memData : Word} (hd : decoderBlock I s.pc s.reg = some d)
    (hm : memoryPhase s d.ctrl (executePhase I s.pc d).aluResult = some (t, memData)) :
    blockCycle I s = (writeBackPhase t d.ctrl d.rd (executePhase I s.pc d).aluResult memData).setPc
      (executePhase I s.pc d).nextPc := by
  simp only [blockCycle, hd, hm]

/-- A cycle whose memory phase does not answer raises MemoryOutOfBounds at the ALU result (60_exceptions R253). -/
theorem blockCycle_raises (hd : decoderBlock I s.pc s.reg = some d)
    (hm : memoryPhase s d.ctrl (executePhase I s.pc d).aluResult = none) :
    blockCycle I s = s.raise .memoryOutOfBounds (executePhase I s.pc d).aluResult := by
  simp only [blockCycle, hd, hm]

theorem exec_decodeOpImm_eq_blockCycle (h : opcodeOf I = opcodeOpImm) :
    exec (decodeOpImm I) s = .next (blockCycle I s) := by
  rw [exec_decodeOpImm, blockCycle_completes s (decoderBlock_of_opcodeOpImm _ _ h) rfl]
  rfl

theorem exec_decodeOpReg_eq_blockCycle (h : opcodeOf I = opcodeOpReg) :
    exec (decodeOpReg I) s = .next (blockCycle I s) := by
  rw [exec_decodeOpReg, blockCycle_completes s (decoderBlock_of_opcodeOpReg _ _ h) rfl]
  rfl

theorem exec_decodeLoad_eq_blockCycle (h : opcodeOf I = opcodeLoad) :
    exec (decodeLoad I) s = .next (blockCycle I s) := by
  have hd := decoderBlock_of_opcodeLoad s.pc s.reg h
  rw [exec_decodeLoad]
  by_cases hb : s.InBounds .word (effectiveAddress (s.reg (rs1Of I)) (immI (immIOf I)))
  · rw [blockCycle_completes s hd (congrArg (Option.map (s, ·)) (s.memRead_word _ hb))]
    exact completeLoad_inBounds s (rdOf I) _ hb
  · rw [blockCycle_raises s hd (congrArg (Option.map (s, ·)) (s.memRead_none _ _ hb))]
    exact completeLoad_outside s (rdOf I) _ hb

theorem exec_decodeStore_eq_blockCycle (h : opcodeOf I = opcodeStore) :
    exec (decodeStore I) s = .next (blockCycle I s) := by
  have hd := decoderBlock_of_opcodeStore s.pc s.reg h
  rw [exec_decodeStore]
  unfold completeStore
  split
  · rename_i t hw
    rw [blockCycle_completes s hd (congrArg (Option.map (·, 0#32)) hw)]
    rfl
  · rename_i hw
    rw [blockCycle_raises s hd (congrArg (Option.map (·, 0#32)) hw)]
    rfl

theorem exec_lui_eq_blockCycle (h : opcodeOf I = opcodeLui) :
    exec (.lui (rdOf I) (immUOf I)) s = .next (blockCycle I s) := by
  have hsum : alu 0#32 (immU (immUOf I)) .add = immU (immUOf I) := BitVec.zero_add _
  rw [blockCycle_completes s (decoderBlock_of_opcodeLui _ _ h) rfl]
  exact congrArg (completeReg (rdOf I) · s) hsum.symm

theorem exec_decodeBranch_eq_blockCycle (h : opcodeOf I = opcodeBranch) :
    exec (decodeBranch I) s = .next (blockCycle I s) := by
  rw [exec_decodeBranch, blockCycle_completes s (decoderBlock_of_opcodeBranch _ _ h) rfl]
  simp only [completeBranch, branchTaken, isZero, beq_iff_eq]
  rfl

theorem exec_jal_eq_blockCycle (h : opcodeOf I = opcodeJal) :
    exec (.jal (rdOf I) (dispJOf I)) s = .next (blockCycle I s) := by
  rw [blockCycle_completes s (decoderBlock_of_opcodeJal _ _ h) rfl]
  rfl

/-- The meaning of a decoded word is what the blocks compute for it. -/
theorem exec_eq_blockCycle_of_decode {i : Instr} (h : decode I = .ok i) : exec i s = .next (blockCycle I s) := by
  unfold decode at h
  split_ifs at h with hImm hReg hLoad hStore hLui hBranch hJal <;> cases h
  · exact exec_decodeOpImm_eq_blockCycle s hImm
  · exact exec_decodeOpReg_eq_blockCycle s hReg
  · exact exec_decodeLoad_eq_blockCycle s hLoad
  · exact exec_decodeStore_eq_blockCycle s hStore
  · exact exec_lui_eq_blockCycle s hLui
  · exact exec_decodeBranch_eq_blockCycle s hBranch
  · exact exec_jal_eq_blockCycle s hJal

theorem blockCycle_of_unsupported (h : opcodeOf I ∉ supportedOpcodes) :
    blockCycle I s = s.raise .unsupportedOpcode I := by
  simp only [blockCycle, decoderBlock_of_unsupported _ _ h]

end Cycle

/-- Settles O17: the five things a step does are the branches of `blockStep`. -/
theorem stepIsTheBlockLevelStep : Obligations.StepIsTheBlockLevelStep := by
  intro s
  obtain ⟨t, hstep, hshape⟩ := step_shape s
  rw [hstep]
  unfold blockStep
  have hmax : s.imem.length * 4 = s.maxAddress := Nat.mul_comm _ _
  rw [hmax]
  cases hshape with
  | stopped h => rw [if_neg h]
  | halts h hp => rw [if_pos h, if_pos hp]
  | misaligned h hp ha => rw [if_pos h, if_neg (Nat.not_le.2 hp), if_neg ha]
  | unsupported h hp ha r hd =>
    rw [if_pos h, if_neg (Nat.not_le.2 hp), if_pos ha, blockCycle_of_unsupported s (unsupported_of_decode_error hd)]
  | runs h hp ha i hd _ he =>
    rw [if_pos h, if_neg (Nat.not_le.2 hp), if_pos ha, ← he, exec_eq_blockCycle_of_decode s hd]

end Sys2Proof.Machine

/-! The family of 30_encoding, ignored bits: what a word does depends on the fields its opcode reads (R106). -/

namespace Sys2Proof

/-- Words that agree outside `ignored` agree on a field without ignored bits. -/
theorem field_eq_of_agree {w v ignored : Word} (h : (w ^^^ v) &&& ~~~ ignored = 0#32) (start len : Nat)
    (hfield : (~~~ ignored).extractLsb' start len = BitVec.allOnes len) :
    w.extractLsb' start len = v.extractLsb' start len := by
  have hzero := congrArg (BitVec.extractLsb' start len) h
  rw [BitVec.extractLsb'_and, hfield, BitVec.and_allOnes, BitVec.extractLsb'_xor, BitVec.extractLsb'_zero] at hzero
  exact BitVec.xor_eq_zero_iff.1 hzero

theorem bit_eq_of_agree {w v ignored : Word} (h : (w ^^^ v) &&& ~~~ ignored = 0#32) (i : Nat)
    (hbit : (~~~ ignored).getLsbD i = true) : w.getLsbD i = v.getLsbD i := by
  have hzero := congrArg (BitVec.getLsbD · i) h
  simpa [hbit] using hzero

theorem eq_of_agree {w v : Word} (h : (w ^^^ v) &&& ~~~ 0#32 = 0#32) : w = v := by
  rw [BitVec.not_zero, BitVec.and_allOnes] at h
  exact BitVec.xor_eq_zero_iff.1 h

end Sys2Proof

namespace Sys2Proof.Machine

/-! The table of R106. -/

section IgnoredBits
variable {w : Word}

theorem ignoredBits_of_opcodeOpImm (h : opcodeOf w = opcodeOpImm) :
    ignoredBits w = if func3Of w = 5#3 then 0xFE000000#32 else 0#32 := by
  unfold ignoredBits
  rw [h]
  rfl

theorem ignoredBits_of_opcodeOpReg (h : opcodeOf w = opcodeOpReg) :
    ignoredBits w = if func3Of w = 0#3 then 0xBE000000#32 else 0xFE000000#32 := by
  unfold ignoredBits
  rw [h]
  rfl

theorem ignoredBits_of_opcodeLoad (h : opcodeOf w = opcodeLoad) : ignoredBits w = 0x00007000#32 := by
  unfold ignoredBits
  rw [h]
  rfl

theorem ignoredBits_of_opcodeStore (h : opcodeOf w = opcodeStore) :
    ignoredBits w = if func3Of w = 0#3 then 0#32 else 0x00007000#32 := by
  unfold ignoredBits
  rw [h]
  rfl

theorem ignoredBits_of_opcodeBranch (h : opcodeOf w = opcodeBranch) : ignoredBits w = 0x00007000#32 := by
  unfold ignoredBits
  rw [h]
  rfl

theorem ignoredBits_of_opcodeLui (h : opcodeOf w = opcodeLui) : ignoredBits w = 0#32 := by
  unfold ignoredBits
  rw [h]
  rfl

theorem ignoredBits_of_opcodeJal (h : opcodeOf w = opcodeJal) : ignoredBits w = 0#32 := by
  unfold ignoredBits
  rw [h]
  rfl

end IgnoredBits

/-- Both words decode, to instructions that do the same in every state. -/
def SameMeaning (w v : Word) : Prop := ∃ i j, decode w = .ok i ∧ decode v = .ok j ∧ ∀ s, exec i s = exec j s

theorem SameMeaning.of_eq {w v : Word} (h : w = v) (hw : opcodeOf w ∈ supportedOpcodes) : SameMeaning w v := by
  subst h
  obtain ⟨i, hi⟩ := exists_decode_of_supported hw
  exact ⟨i, i, hi, hi, fun _ => rfl⟩

/-- Where `func3` is not 0 the ALU Control Generator does not look at bit 30 (40_datapath_blocks R144). -/
theorem aluControl_regOp_of_ne_zero {f : BitVec 3} (h : f ≠ 0#3) (b c : Bool) :
    aluControl .regOp f b = aluControl .regOp f c := by
  simp only [aluControl, h, if_false]

section
variable {w v : Word}

theorem sameMeaning_shift (h : opcodeOf w = opcodeOpImm) (h5 : func3Of w = 5#3)
    (hagree : (w ^^^ v) &&& ~~~ 0xFE000000#32 = 0#32) : SameMeaning w v := by
  have hop : opcodeOf w = opcodeOf v := field_eq_of_agree hagree 0 7 (by decide)
  have hfunc3 : func3Of w = func3Of v := field_eq_of_agree hagree 12 3 (by decide)
  have hrd : rdOf w = rdOf v := field_eq_of_agree hagree 7 5 (by decide)
  have hrs1 : rs1Of w = rs1Of v := field_eq_of_agree hagree 15 5 (by decide)
  have hshamt : shamtOf w = shamtOf v := field_eq_of_agree hagree 20 5 (by decide)
  refine ⟨_, _, decode_of_opcodeOpImm h, decode_of_opcodeOpImm (hop ▸ h), fun s => ?_⟩
  rw [decodeOpImm_of_func3_five h5, decodeOpImm_of_func3_five (hfunc3 ▸ h5), hrd, hrs1, hshamt]
  rfl

theorem sameMeaning_opReg (h : opcodeOf w = opcodeOpReg) (hagree : (w ^^^ v) &&& ~~~ ignoredBits w = 0#32) :
    SameMeaning w v := by
  rw [ignoredBits_of_opcodeOpReg h] at hagree
  have hkept : (w ^^^ v) &&& ~~~ 0xFE000000#32 = 0#32 := by
    split_ifs at hagree
    · have := congrArg (· &&& ~~~ 0xFE000000#32) hagree
      rwa [BitVec.and_assoc] at this
    · exact hagree
  have hop : opcodeOf w = opcodeOf v := field_eq_of_agree hkept 0 7 (by decide)
  have hfunc3 : func3Of w = func3Of v := field_eq_of_agree hkept 12 3 (by decide)
  have hrd : rdOf w = rdOf v := field_eq_of_agree hkept 7 5 (by decide)
  have hrs1 : rs1Of w = rs1Of v := field_eq_of_agree hkept 15 5 (by decide)
  have hrs2 : rs2Of w = rs2Of v := field_eq_of_agree hkept 20 5 (by decide)
  have hsel : aluControl .regOp (func3Of w) (func7b5Of w) = aluControl .regOp (func3Of v) (func7b5Of v) := by
    rw [← hfunc3]
    split_ifs at hagree with h0
    · have hbit : func7b5Of w = func7b5Of v := bit_eq_of_agree hagree 30 (by decide)
      rw [hbit]
    · exact aluControl_regOp_of_ne_zero h0 _ _
  refine ⟨_, _, decode_of_opcodeOpReg h, decode_of_opcodeOpReg (hop ▸ h), fun s => ?_⟩
  rw [exec_decodeOpReg, exec_decodeOpReg, hrd, hrs1, hrs2, hsel]

theorem sameMeaning_load (h : opcodeOf w = opcodeLoad) (hagree : (w ^^^ v) &&& ~~~ 0x00007000#32 = 0#32) :
    SameMeaning w v := by
  have hop : opcodeOf w = opcodeOf v := field_eq_of_agree hagree 0 7 (by decide)
  have hrd : rdOf w = rdOf v := field_eq_of_agree hagree 7 5 (by decide)
  have hrs1 : rs1Of w = rs1Of v := field_eq_of_agree hagree 15 5 (by decide)
  have himm : immIOf w = immIOf v := field_eq_of_agree hagree 20 12 (by decide)
  refine ⟨_, _, decode_of_opcodeLoad h, decode_of_opcodeLoad (hop ▸ h), fun s => ?_⟩
  rw [exec_decodeLoad, exec_decodeLoad, hrd, hrs1, himm]

theorem sameMeaning_wordStore (h : opcodeOf w = opcodeStore) (hw : func3Of w ≠ 0#3) (hv : func3Of v ≠ 0#3)
    (hagree : (w ^^^ v) &&& ~~~ 0x00007000#32 = 0#32) : SameMeaning w v := by
  have hop : opcodeOf w = opcodeOf v := field_eq_of_agree hagree 0 7 (by decide)
  have hwidth : storeWidth w = storeWidth v := (if_neg hw).trans (if_neg hv).symm
  have hrs1 : rs1Of w = rs1Of v := field_eq_of_agree hagree 15 5 (by decide)
  have hrs2 : rs2Of w = rs2Of v := field_eq_of_agree hagree 20 5 (by decide)
  have himm : immSOf w = immSOf v :=
    congrArg₂ (· ++ ·) (field_eq_of_agree hagree 25 7 (by decide)) (field_eq_of_agree hagree 7 5 (by decide))
  refine ⟨_, _, decode_of_opcodeStore h, decode_of_opcodeStore (hop ▸ h), fun s => ?_⟩
  rw [exec_decodeStore, exec_decodeStore, hwidth, hrs1, hrs2, himm]

theorem sameMeaning_branch (h : opcodeOf w = opcodeBranch) (hagree : (w ^^^ v) &&& ~~~ 0x00007000#32 = 0#32) :
    SameMeaning w v := by
  have hop : opcodeOf w = opcodeOf v := field_eq_of_agree hagree 0 7 (by decide)
  have hrs1 : rs1Of w = rs1Of v := field_eq_of_agree hagree 15 5 (by decide)
  have hrs2 : rs2Of w = rs2Of v := field_eq_of_agree hagree 20 5 (by decide)
  have hdisp : dispBOf w = dispBOf v := by
    unfold dispBOf
    rw [field_eq_of_agree hagree 31 1 (by decide), field_eq_of_agree hagree 7 1 (by decide),
      field_eq_of_agree hagree 25 6 (by decide), field_eq_of_agree hagree 8 4 (by decide)]
  refine ⟨_, _, decode_of_opcodeBranch h, decode_of_opcodeBranch (hop ▸ h), fun s => ?_⟩
  rw [exec_decodeBranch, exec_decodeBranch, hrs1, hrs2, hdisp]

end

/-- Settles O35: for each opcode, the fields its meaning reads have no ignored bit. -/
theorem ignoredBitsChangeNothing : Obligations.IgnoredBitsChangeNothing := by
  intro w v hw hagree hstore
  change SameMeaning w v
  obtain h | h | h | h | h | h | h := opcode_cases hw
  case inl =>
    rw [ignoredBits_of_opcodeOpImm h] at hagree
    split_ifs at hagree with h5
    · exact sameMeaning_shift h h5 hagree
    · exact .of_eq (eq_of_agree hagree) hw
  · exact sameMeaning_opReg h hagree
  · exact sameMeaning_load h (ignoredBits_of_opcodeLoad h ▸ hagree)
  · rw [ignoredBits_of_opcodeStore h] at hagree
    split_ifs at hagree with h0
    · exact .of_eq (eq_of_agree hagree) hw
    · exact sameMeaning_wordStore h h0 (hstore h h0) hagree
  · exact .of_eq (eq_of_agree (ignoredBits_of_opcodeLui h ▸ hagree)) hw
  · exact sameMeaning_branch h (ignoredBits_of_opcodeBranch h ▸ hagree)
  · exact .of_eq (eq_of_agree (ignoredBits_of_opcodeJal h ▸ hagree)) hw

end Sys2Proof.Machine

/-! The family of 20_memory: the access primitives (R55 to R57, R63). -/

namespace Sys2Proof.Machine

/-- Settles O10: each access has an equation in bounds and one out of bounds. -/
theorem memReadIsLittleEndianAndBounded : Obligations.MemReadIsLittleEndianAndBounded := by
  refine fun s addr => ⟨fun h => ?word, fun h => ?byte, fun h => ?wordOutside, fun h => ?byteOutside⟩
  case word => exact ⟨_, s.memRead_word addr h, fun k hk => Memory.byteOfWord_readWord _ _ hk⟩
  case byte =>
    refine ⟨_, s.memRead_byte addr h, ?_⟩
    have hlt : (s.dmem.read addr.toNat).toNat < 2 ^ 8 := (s.dmem.read addr.toNat).isLt
    rw [BitVec.toNat_setWidth, Nat.mod_eq_of_lt (Nat.lt_trans hlt (by decide))]
  case wordOutside => exact s.memRead_none .word addr (Nat.not_le.2 h)
  case byteOutside => exact s.memRead_none .byte addr (Nat.not_le.2 h)

/-- The memory after a write of width `w` in bounds. -/
def Memory.writeAt (m : Memory) (w : Width) (a : Nat) (v : Word) : Memory :=
  match w with
  | .byte => m.write a (byteOfWord v 0)
  | .word => m.writeWord a v

theorem State.memWrite_inBounds (s : State) (w : Width) (addr v : Word) (h : s.InBounds w addr) :
    s.memWrite w addr v = some (s.setDmem (s.dmem.writeAt w addr.toNat v)) := by
  cases w with
  | byte => exact s.memWrite_byte addr v h
  | word => exact s.memWrite_word addr v h

theorem Memory.writeAt_wf (m : Memory) (w : Width) (a : Nat) (v : Word) (h : m.wf) : (m.writeAt w a v).wf := by
  cases w with
  | byte => exact Memory.write_wf _ _ _ h
  | word => exact Memory.writeWord_wf _ _ _ h

/-- Every byte after a write, of either width. -/
theorem Memory.read_writeAt (m : Memory) (w : Width) (a : Nat) (v : Word) (x : Nat) (h : m.wf) :
    (m.writeAt w a v).read x = if a ≤ x ∧ x < a + w.bytes then byteOfWord v (x - a) else m.read x := by
  cases w with
  | word => exact Memory.read_writeWord m a v x h
  | byte =>
    refine (Memory.read_write m a _ x h).trans ?_
    by_cases hx : x = a
    · subst hx
      rw [if_pos rfl, if_pos ⟨Nat.le_refl _, Nat.lt_succ_self _⟩, Nat.sub_self]
    · rw [if_neg hx, if_neg fun hin => hx (by simp only [Width.bytes] at hin; omega)]

theorem Memory.read_writeAt_inside (m : Memory) (w : Width) (a : Nat) (v : Word) {k : Nat} (hk : k < w.bytes) (h : m.wf) :
    (m.writeAt w a v).read (a + k) = byteOfWord v k := by
  rw [Memory.read_writeAt m w a v _ h, if_pos ⟨Nat.le_add_right _ _, Nat.add_lt_add_left hk a⟩, Nat.add_sub_cancel_left]

theorem Memory.read_writeAt_outside (m : Memory) (w : Width) (a : Nat) (v : Word) {x : Nat}
    (hx : x < a ∨ a + w.bytes ≤ x) (h : m.wf) : (m.writeAt w a v).read x = m.read x := by
  rw [Memory.read_writeAt m w a v x h, if_neg (by omega)]

/-- Settles O11: the bytes of the access and the others are the two cases of a read after a write. -/
theorem memWriteChangesExactlyItsBytes : Obligations.MemWriteChangesExactlyItsBytes := by
  refine fun s w addr v hwf => ⟨fun h => ?inBounds, fun h => s.memWrite_none w addr v (Nat.not_le.2 h)⟩
  exact ⟨_, s.memWrite_inBounds w addr v h, fun k hk => Memory.read_writeAt_inside _ _ _ _ hk hwf,
    fun a ha => Memory.read_writeAt_outside _ _ _ _ ha hwf, Memory.writeAt_wf _ _ _ _ hwf, rfl, rfl, rfl, rfl, rfl⟩

/-- A word read back where it was written (20_memory R63). -/
theorem Memory.readWord_writeWord (m : Memory) (a : Nat) (v : Word) (h : m.wf) : (m.writeWord a v).readWord a = v := by
  have hbyte : ∀ k < 4, (m.writeWord a v).read (a + k) = byteOfWord v k :=
    fun k hk => Memory.read_writeAt_inside m .word a v hk h
  have hbyte0 : (m.writeWord a v).read a = byteOfWord v 0 := hbyte 0 (by decide)
  rw [Memory.readWord, hbyte0, hbyte 1 (by decide), hbyte 2 (by decide), hbyte 3 (by decide)]
  exact wordOfBytes_bytes v

/-- Settles O12: the store is in bounds, and so is the load. -/
theorem storedWordLoadsBack : Obligations.StoredWordLoadsBack := by
  intro s addr v hwf h
  refine ⟨_, s.memWrite_word addr v h, (State.memRead_word _ addr (by exact h)).trans ?_⟩
  rw [State.setDmem_dmem, Memory.readWord_writeWord _ _ _ hwf]

/-! The family of 44_load: in bounds and out of bounds (R211, R253). -/

theorem completeLoad_writesRegister (s : State) (rd : RegIdx) (addr : Word) (h : s.InBounds .word addr) :
    ∃ t, completeLoad rd addr s = .next t ∧ WritesRegister s t rd (s.dmem.readWord addr.toNat) (s.pc + 4#32) :=
  ⟨_, completeLoad_inBounds s rd addr h, writesRegister_setReg_setPc s rd _ _⟩

theorem completeLoad_raisesFault (s : State) (rd : RegIdx) (addr : Word) (h : ¬ s.InBounds .word addr) :
    ∃ t, completeLoad rd addr s = .next t ∧ RaisesFault s t .memoryOutOfBounds addr :=
  ⟨_, completeLoad_outside s rd addr h, raisesFault_raise s _ addr⟩

/-- The five loads have one meaning (30_encoding R101). -/
theorem exec_load {i : Instr} {rd rs1 : RegIdx} {imm : BitVec 12} {func3 : BitVec 3}
    (hi : i = .lb rd rs1 imm ∨ i = .lw rd rs1 imm ∨ i = .loadF1 rd rs1 imm ∨ i = .loadF3 rd rs1 imm ∨
      i = .loadF47 rd rs1 imm func3) (s : State) : exec i s = completeLoad rd (s.reg rs1 + imm.signExtend 32) s := by
  obtain rfl | rfl | rfl | rfl | rfl := hi <;> rfl

/-- Settles O27: in bounds a load completes with the word of the four bytes. -/
theorem loadsReadTheWordInBounds : Obligations.LoadsReadTheWordInBounds := by
  intro i rd rs1 imm func3 s hi hb
  obtain ⟨t, hexec, hwrites⟩ := completeLoad_writesRegister s rd _ hb
  exact ⟨t, _, (exec_load hi s).trans hexec, hwrites, fun k hk => Memory.byteOfWord_readWord _ _ hk⟩

/-- Settles O28: out of bounds a load raises, whatever `rd` is. -/
theorem loadsOutOfBoundsFault : Obligations.LoadsOutOfBoundsFault := by
  intro i rd rs1 imm func3 s hi hb
  rw [exec_load hi s]
  exact completeLoad_raisesFault s rd _ (Nat.not_le.2 hb)

/-! The family of 45_store: in bounds and out of bounds (R220 to R222, R253). -/

/-- The state after a store in bounds. -/
def State.stored (s : State) (w : Width) (addr v : Word) : State :=
  (s.setDmem (s.dmem.writeAt w addr.toNat v)).setPc (s.pc + 4#32)

theorem completeStore_inBounds (s : State) (w : Width) (addr v : Word) (h : s.InBounds w addr) :
    completeStore w addr v s = .next (s.stored w addr v) := by
  unfold completeStore
  rw [s.memWrite_inBounds w addr v h]
  rfl

theorem storesAt_stored (s : State) (w : Width) (addr v : Word) (hwf : s.dmem.wf) :
    StoresAt s (s.stored w addr v) w addr where
  pc := rfl
  regs _ := rfl
  otherBytes _ ha := Memory.read_writeAt_outside _ _ _ _ ha hwf
  program := rfl
  status := rfl
  config := rfl

theorem completeStore_raisesFault (s : State) (w : Width) (addr v : Word) (h : ¬ s.InBounds w addr) :
    ∃ t, completeStore w addr v s = .next t ∧ RaisesFault s t .memoryOutOfBounds addr :=
  ⟨_, completeStore_outside s w addr v h, raisesFault_raise s _ addr⟩

/-- The four word stores have one meaning (30_encoding R102). -/
theorem exec_wordStore {i : Instr} {rs1 rs2 : RegIdx} {imm : BitVec 12} {func3 : BitVec 3}
    (hi : i = .sw rs1 rs2 imm ∨ i = .storeF1 rs1 rs2 imm ∨ i = .storeF3 rs1 rs2 imm ∨ i = .storeF47 rs1 rs2 imm func3)
    (s : State) : exec i s = completeStore .word (effectiveAddress (s.reg rs1) (immS imm)) (s.reg rs2) s := by
  obtain rfl | rfl | rfl | rfl := hi <;> rfl

/-- Settles O29: the byte of the access is byte 0 of the register. -/
theorem sbStoresOneByte : Obligations.SbStoresOneByte := by
  intro rs1 rs2 imm s hwf hb
  refine ⟨rfl, _, completeStore_inBounds s .byte _ (s.reg rs2) hb, storesAt_stored s _ _ _ hwf, ?_⟩
  exact Memory.read_writeAt_inside s.dmem .byte _ (s.reg rs2) (k := 0) Nat.one_pos hwf

/-- Settles O30: the four bytes of the access are those of the register. -/
theorem wordStoresStoreFourBytes : Obligations.WordStoresStoreFourBytes := by
  intro i rs1 rs2 imm func3 s hi hwf hb
  refine ⟨rfl, _, (exec_wordStore hi s).trans (completeStore_inBounds s .word _ _ hb), storesAt_stored s _ _ _ hwf, ?_⟩
  exact fun k hk => Memory.read_writeAt_inside s.dmem .word _ (s.reg rs2) hk hwf

/-- Settles O31: out of bounds a store raises, and no memory is written. -/
theorem storesOutOfBoundsFault : Obligations.StoresOutOfBoundsFault := by
  rintro i rs1 rs2 imm func3 s (⟨rfl, hb⟩ | ⟨hi, hb⟩)
  · exact completeStore_raisesFault s .byte _ _ (Nat.not_le.2 hb)
  · rw [exec_wordStore hi s]
    exact completeStore_raisesFault s .word _ _ (Nat.not_le.2 hb)

/-! The families of 42_op_imm and 43_op_reg: the unnamed rows (R192 to R195, R203 to R205). -/

/-- Settles O22: the four rows are one register completion. -/
theorem unnamedOpImmAddsTheImmediate : Obligations.UnnamedOpImmAddsTheImmediate := by
  rintro i rd rs1 imm func3 s (rfl | rfl | rfl | rfl) <;> exact completeReg_writesRegister s rd _

/-- Settles O23: both rows are register completions. -/
theorem unnamedOpImmSubtractsOrXors : Obligations.UnnamedOpImmSubtractsOrXors := fun rd _ _ s =>
  ⟨completeReg_writesRegister s rd _, completeReg_writesRegister s rd _⟩

/-- Settles O25: the rows are register completions; the shift is the floor division `sra_toInt`. -/
theorem unnamedOpRegResults : Obligations.UnnamedOpRegResults := by
  refine fun rd rs1 rs2 func7 func3 s => ⟨?sra, completeReg_writesRegister s rd _, ?add⟩
  case sra =>
    obtain ⟨t, hexec, hwrites⟩ := completeReg_writesRegister s rd (alu (s.reg rs1) (s.reg rs2) .sra)
    exact ⟨t, _, hexec, (congrArg BitVec.toInt (alu_sra _ _)).trans (sra_toInt _ _), hwrites⟩
  case add => rintro i (rfl | rfl | rfl) <;> exact completeReg_writesRegister s rd _

/-! The families of 47_branch and 48_jump: the next pc (R235, R236, R240). -/

theorem movesPcOnly_setPc (s : State) (nextPc : Word) : MovesPcOnly s (s.setPc nextPc) nextPc :=
  ⟨rfl, fun _ => rfl, fun _ => rfl, rfl, rfl, rfl⟩

theorem completeBranch_movesPcOnly (s : State) (a b d : Word) :
    ∃ t, completeBranch a b d s = .next t ∧ MovesPcOnly s t (if a = b then s.pc + d else s.pc + 4#32) :=
  ⟨_, completeBranch_eq s a b d, movesPcOnly_setPc s _⟩

theorem completeJump_writesRegister (s : State) (rd : RegIdx) (d : Word) :
    ∃ t, completeJump rd d s = .next t ∧ WritesRegister s t rd (s.pc + 4#32) (s.pc + d) :=
  ⟨_, completeJump_eq s rd d, writesRegister_setReg_setPc s rd _ _⟩

/-- Settles O32: the four rows are one branch (30_encoding R103). -/
theorem branchesGoWhereStatedIfEqual : Obligations.BranchesGoWhereStatedIfEqual := by
  rintro i rs1 rs2 disp func3 s (rfl | rfl | rfl | rfl) <;> exact completeBranch_movesPcOnly s _ _ _

/-- Settles O33: JAL is the jump completion, with both addresses from the pc before it. -/
theorem jalLinksAndJumps : Obligations.JalLinksAndJumps := fun rd disp s => completeJump_writesRegister s rd (dispJ disp)

/-! The idiom of 30_encoding R110: two writes of one register. -/

/-- Of two writes of a register the second counts. -/
theorem WritesRegister.trans {s t u : State} {rd : RegIdx} {v₁ v₂ pc₁ pc₂ : Word} (h₁ : WritesRegister s t rd v₁ pc₁)
    (h₂ : WritesRegister t u rd v₂ pc₂) : WritesRegister s u rd v₂ pc₂ where
  pc := h₂.pc
  written := h₂.written
  otherRegs r hr := (h₂.otherRegs r hr).trans (h₁.otherRegs r hr)
  memory a := (h₂.memory a).trans (h₁.memory a)
  program := h₂.program.trans h₁.program
  status := h₂.status.trans h₁.status
  config := h₂.config.trans h₁.config

/-- An immediate whose sign bit is clear fills the twelve zeros of an upper immediate. -/
theorem immU_or_immI (hi : BitVec 20) (lo : BitVec 12) (h : lo.getLsbD 11 = false) : immU hi ||| immI lo = hi ++ lo := by
  have hmsb : lo.msb = false := (BitVec.msb_eq_getLsbD_last lo).trans h
  have hlo : immI lo = 0#20 ++ lo :=
    (BitVec.signExtend_eq_setWidth_of_msb_false hmsb).trans (BitVec.setWidth_eq_append (by decide))
  rw [hlo, immU]
  exact BitVec.or_append.trans (by rw [BitVec.or_zero, BitVec.zero_or])

/-- Settles O36: the write of ORI replaces that of LUI, and the parts of the constant do not overlap. -/
theorem luiThenOriBuildsAConstant : Obligations.LuiThenOriBuildsAConstant := by
  intro rd hi lo s hrd hlo
  obtain ⟨t, hlui, hwt⟩ := exec_lui_writesRegister rd hi s
  obtain ⟨u, hori, hwu⟩ := completeReg_writesRegister t rd (t.reg rd ||| immI lo)
  rw [hwt.written hrd, immU_or_immI hi lo hlo, hwt.pc, BitVec.add_assoc] at hwu
  exact ⟨t, u, hlui, hori, hwt.trans hwu⟩

end Sys2Proof.Machine

/-! The family of 41_cycle_sequencer and 60_exceptions: what a step is in each situation (R160 to R171, R250 to R259). -/

namespace Sys2Proof.Machine

variable {s t : State}

/-! The word fetched. -/

theorem getElem?_fetchWord (hp : s.pc.toNat < s.maxAddress) : s.imem[s.pc.toNat / 4]? = some s.fetchWord := by
  have hlt : s.pc.toNat / 4 < s.imem.length := by
    unfold State.maxAddress at hp
    omega
  rw [State.fetchWord, List.getD_eq_getElem?_getD, List.getElem?_eq_getElem hlt, Option.getD_some]

theorem fetchWord_of_getElem? {w : Word} (h : s.imem[s.pc.toNat / 4]? = some w) : s.fetchWord = w := by
  rw [State.fetchWord, List.getD_eq_getElem?_getD, h, Option.getD_some]

theorem fetchWord_mem (hp : s.pc.toNat < s.maxAddress) : s.fetchWord ∈ s.imem :=
  List.mem_of_getElem? (getElem?_fetchWord hp)

/-! The step of a running machine, one lemma for each situation of R170. -/

theorem step_of_running (hs : s.status = .running) : step s = runCycle s := by
  unfold step driverStep
  rw [hs]

theorem step_misaligned (hs : s.status = .running) (hp : s.pc.toNat < s.maxAddress) (ha : s.pc.toNat % 4 ≠ 0) :
    step s = .next (s.raise .misalignedPC s.pc) := by
  rw [step_of_running hs, runCycle, if_neg (Nat.not_le.2 hp), if_pos ha]

theorem step_fetches (hs : s.status = .running) (hp : s.pc.toNat < s.maxAddress) (ha : s.pc.toNat % 4 = 0) :
    step s = runWord s.fetchWord s := by
  rw [step_of_running hs, runCycle, if_neg (Nat.not_le.2 hp), if_neg (not_not.2 ha)]

theorem runWord_of_decode {w : Word} {i : Instr} (hd : decode w = .ok i) (s : State) : runWord w s = exec i s := by
  unfold runWord
  rw [hd]

theorem runWord_of_unsupported {w : Word} (h : opcodeOf w ∉ supportedOpcodes) (s : State) :
    runWord w s = .next (s.raise .unsupportedOpcode w) := by
  unfold runWord
  rw [decode_of_unsupported h]

/-- Settles O18: the halt test and the alignment test pass, and the fetch reads the word. -/
theorem stepRunsTheDecodedInstruction : Obligations.StepRunsTheDecodedInstruction := by
  intro s w i hs hp ha hw hd
  rw [step_fetches hs hp ha, fetchWord_of_getElem? hw, runWord_of_decode hd]

/-! The loader's stand-in (70_reset_and_hazards R286). -/

theorem getElem?_placeWord_self (program : List Word) (k : Nat) (w : Word) : (placeWord program k w)[k]? = some w := by
  unfold placeWord
  split_ifs with hk
  · exact List.getElem?_set_self hk
  · have hlen : (program ++ List.replicate (k - program.length) 0#32).length = k := by
      rw [List.length_append, List.length_replicate]
      omega
    rw [List.getElem?_append_right (by omega), hlen, Nat.sub_self]
    rfl

theorem getElem?_placeWord_ne (program : List Word) {k j : Nat} (w : Word) (hj : j < program.length) (hne : j ≠ k) :
    (placeWord program k w)[j]? = program[j]? := by
  unfold placeWord
  split_ifs
  · exact List.getElem?_set_ne hne.symm
  · rw [List.append_assoc, List.getElem?_append_left hj]

theorem tableWord_toNat (w : Word) : tableWord 32 w.toNat = w := by
  rw [tableWord, Nat.mod_eq_of_lt w.isLt, BitVec.ofNat_toNat, BitVec.setWidth_eq]

/-- Settles O19: the word stands at the index the step of the placed state fetches from. -/
theorem loadedWordRunsNext : Obligations.LoadedWordRunsNext := by
  intro s w i hd
  refine ⟨?runs, rfl, rfl, rfl, fun k hk hne => getElem?_placeWord_ne s.imem _ hk hne⟩
  have hpc : (s.withFetchWord 32 w.toNat).pc.toNat = s.pc.toNat / 4 * 4 := by
    have hlt : s.pc.toNat < 2 ^ 32 := s.pc.isLt
    exact Nat.mod_eq_of_lt (by omega)
  have hindex : (s.withFetchWord 32 w.toNat).pc.toNat / 4 = s.pc.toNat / 4 := by omega
  have hword : (s.withFetchWord 32 w.toNat).imem[(s.withFetchWord 32 w.toNat).pc.toNat / 4]? = some w := by
    rw [hindex]
    exact (getElem?_placeWord_self _ _ _).trans (congrArg some (tableWord_toNat w))
  have hlt : (s.withFetchWord 32 w.toNat).pc.toNat / 4 < (s.withFetchWord 32 w.toNat).imem.length :=
    (List.getElem?_eq_some_iff.1 hword).1
  exact stepRunsTheDecodedInstruction _ w i rfl (by omega) (by omega) hword hd

/-! Totality, stopping and the frame of a step. -/

/-- Settles O40: the shapes of a step and of an instruction are all next states. -/
theorem everyStepAnswersANextState : Obligations.EveryStepAnswersANextState :=
  ⟨fun s => (step_shape s).imp fun _ h => h.1, fun i s => (exec_shape i s).imp fun _ h => h.1⟩

/-- Settles O41: a stopped state steps to itself, so a run stays there. -/
theorem stoppedStatesAreAbsorbing : Obligations.StoppedStatesAreAbsorbing := fun _ hs =>
  ⟨step_of_not_running hs, fun _ => Reaches.eq_of_step_self (step_of_not_running hs)⟩

/-- Only the driver halts the machine (41_cycle_sequencer R167). -/
theorem exec_not_halted {i : Instr} (hs : s.status = .running) (h : exec i s = .next t) : t.status ≠ .halted := by
  obtain hkept | ⟨addr, rfl⟩ := exec_status_eq_or_raise h
  · rw [hkept, hs]
    nofun
  · nofun

/-- Settles O42: of the shapes of a step from a running state, the halt is the one with pc at the end or past it. -/
theorem haltsExactlyAtTheEndOfTheProgram : Obligations.HaltsExactlyAtTheEndOfTheProgram := by
  intro s t hs h
  cases StepShape.of_step h with
  | stopped hn => exact absurd hs hn
  | halts _ hp => exact ⟨⟨fun _ => hp, fun _ => rfl⟩, fun _ => ⟨rfl, rfl, rfl, rfl, rfl⟩⟩
  | misaligned _ hp => exact ⟨⟨nofun, fun hge => absurd hge (Nat.not_le.2 hp)⟩, nofun⟩
  | unsupported _ hp => exact ⟨⟨nofun, fun hge => absurd hge (Nat.not_le.2 hp)⟩, nofun⟩
  | runs _ hp _ i _ _ he =>
    have hnot : t.status ≠ .halted := exec_not_halted hs he
    exact ⟨⟨fun hhalt => absurd hhalt hnot, fun hge => absurd hge (Nat.not_le.2 hp)⟩, fun hhalt => absurd hhalt hnot⟩

theorem exec_keeps_program {i : Instr} (h : exec i s = .next t) : t.imem = s.imem ∧ t.cfg = s.cfg := by
  cases ExecShape.of_exec h with
  | register rd v => exact ⟨s.setReg_imem rd v, s.setReg_cfg rd v⟩
  | pcOnly => exact ⟨rfl, rfl⟩
  | store w addr v u hw =>
    obtain ⟨-, m, rfl, -⟩ := State.memWrite_cases s u w addr v hw
    exact ⟨rfl, rfl⟩
  | outOfBounds => exact ⟨rfl, rfl⟩

theorem step_keeps_program (h : step s = .next t) : t.imem = s.imem ∧ t.cfg = s.cfg := by
  cases StepShape.of_step h with
  | runs _ _ _ i _ _ he => exact exec_keeps_program he
  | stopped | halts | misaligned | unsupported => exact ⟨rfl, rfl⟩

/-- Settles O45: every step of the run keeps them, and the fetch reads the program and the pc alone. -/
theorem programAndConfigurationNeverChange : Obligations.ProgramAndConfigurationNeverChange := by
  refine ⟨fun s t hrun => ?_, fun s m => rfl⟩
  refine hrun.invariant (P := fun u => u.imem = s.imem ∧ u.cfg = s.cfg) (fun u v hu hstep => ?_) ⟨rfl, rfl⟩
  obtain ⟨himem, hcfg⟩ := step_keeps_program hstep
  exact ⟨himem.trans hu.1, hcfg.trans hu.2⟩

/-- Settles O47: of the shapes of an instruction, only the register completion touches the register file. -/
theorem onlyTheDestinationRegisterChanges : Obligations.OnlyTheDestinationRegisterChanges := by
  refine fun i s t h => ⟨fun r hr => ?_, exec_keeps_program h⟩
  cases ExecShape.of_exec h with
  | register rd v _ hdest =>
    by_cases hne : r = rd
    · subst hne
      exact ⟨hdest, fun hzero => hr (by rw [hzero]; rfl)⟩
    · exact absurd (s.setReg_reg_ne rd r v hne) hr
  | pcOnly => exact absurd rfl hr
  | store w addr v u hw =>
    obtain ⟨-, m, rfl, -⟩ := State.memWrite_cases s u w addr v hw
    exact absurd rfl hr
  | outOfBounds => exact absurd rfl hr

theorem exec_keeps_dmem {i : Instr} (hi : i.opcode ≠ opcodeStore) (h : exec i s = .next t) : t.dmem = s.dmem := by
  cases ExecShape.of_exec h with
  | register rd v => exact s.setReg_dmem rd v
  | pcOnly => rfl
  | store _ _ _ _ _ _ ho => exact absurd ho hi
  | outOfBounds => rfl

/-- The bytes a store word changes are bytes of its access. -/
theorem exec_decodeStore_changes {w : Word} {a : Nat} (hwf : s.dmem.wf) (h : exec (decodeStore w) s = .next t)
    (hne : t.dmem.read a ≠ s.dmem.read a) :
    (effectiveAddress (s.reg (rs1Of w)) (immS (immSOf w))).toNat ≤ a ∧
      a < (effectiveAddress (s.reg (rs1Of w)) (immS (immSOf w))).toNat + (storeWidth w).bytes := by
  rw [exec_decodeStore] at h
  by_cases hb : s.InBounds (storeWidth w) (effectiveAddress (s.reg (rs1Of w)) (immS (immSOf w)))
  · cases (completeStore_inBounds s _ _ _ hb).symm.trans h
    by_contra hout
    exact hne (Memory.read_writeAt_outside _ _ _ _ (by omega) hwf)
  · cases (completeStore_outside s _ _ _ hb).symm.trans h
    exact absurd rfl hne

theorem access_of_opcodeStore {w : Word} (h : opcodeOf w = opcodeStore) :
    s.access w = some (storeWidth w, effectiveAddress (s.reg (rs1Of w)) (immS (immSOf w))) := by
  unfold State.access
  rw [h]
  rfl

theorem access_of_opcodeLoad {w : Word} (h : opcodeOf w = opcodeLoad) :
    s.access w = some (.word, effectiveAddress (s.reg (rs1Of w)) (immI (immIOf w))) := by
  unfold State.access
  rw [h]
  rfl

theorem access_eq_none {w : Word} (hl : opcodeOf w ≠ opcodeLoad) (hs : opcodeOf w ≠ opcodeStore) : s.access w = none := by
  unfold State.access
  rw [if_neg hl, if_neg hs]

/-- Settles O46: only an instruction of opcode 0x23 changes the memory, and only inside its access. -/
theorem onlyStoresChangeTheDataMemory : Obligations.OnlyStoresChangeTheDataMemory := by
  intro s t a hwf h hne
  cases StepShape.of_step h with
  | stopped | halts | misaligned | unsupported => exact absurd rfl hne
  | runs hs _ _ i hd _ he =>
    have hop : i.opcode = opcodeStore := by
      by_contra hnot
      exact hne (by rw [exec_keeps_dmem hnot he])
    have hstore : opcodeOf s.fetchWord = opcodeStore := (opcode_of_decode hd).symm.trans hop
    obtain rfl : decodeStore s.fetchWord = i := Except.ok.inj ((decode_of_opcodeStore hstore).symm.trans hd)
    exact ⟨hs, hstore, _, _, access_of_opcodeStore hstore, rfl, rfl, exec_decodeStore_changes hwf he hne⟩

end Sys2Proof.Machine

/-! The family of 60_exceptions, causes: a step faults exactly where `State.FaultCause` says so (R252 to R254). -/

namespace Sys2Proof.Machine

variable {s t : State}

/-- An instruction that accesses no memory keeps the status. -/
theorem exec_keeps_status {i : Instr} (hl : i.opcode ≠ opcodeLoad) (hs : i.opcode ≠ opcodeStore)
    (h : exec i s = .next t) : t.status = s.status := by
  cases i
  case lb | lw | loadF1 | loadF3 | loadF47 => exact absurd rfl hl
  case sb | sw | storeF1 | storeF3 | storeF47 => exact absurd rfl hs
  all_goals
    cases h
    simp

/-- An instruction whose access, if it makes one, is in bounds keeps the status; one whose access is not raises
MemoryOutOfBounds at its address. -/
theorem exec_by_access {w : Word} {i : Instr} (hd : decode w = .ok i) (h : exec i s = .next t) :
    (t.status = s.status ∧ ∀ width addr, s.access w = some (width, addr) → s.InBounds width addr) ∨
    ∃ width addr, s.access w = some (width, addr) ∧ ¬ s.InBounds width addr ∧ t = s.raise .memoryOutOfBounds addr := by
  by_cases hload : opcodeOf w = opcodeLoad
  · obtain rfl : decodeLoad w = i := Except.ok.inj ((decode_of_opcodeLoad hload).symm.trans hd)
    rw [exec_decodeLoad] at h
    rw [access_of_opcodeLoad hload]
    by_cases hb : s.InBounds .word (effectiveAddress (s.reg (rs1Of w)) (immI (immIOf w)))
    · cases (completeLoad_inBounds s (rdOf w) _ hb).symm.trans h
      refine .inl ⟨s.setReg_status _ _, ?_⟩
      rintro _ _ ⟨⟩
      exact hb
    · cases (completeLoad_outside s (rdOf w) _ hb).symm.trans h
      exact .inr ⟨_, _, rfl, hb, rfl⟩
  by_cases hstore : opcodeOf w = opcodeStore
  · obtain rfl : decodeStore w = i := Except.ok.inj ((decode_of_opcodeStore hstore).symm.trans hd)
    rw [exec_decodeStore] at h
    rw [access_of_opcodeStore hstore]
    by_cases hb : s.InBounds (storeWidth w) (effectiveAddress (s.reg (rs1Of w)) (immS (immSOf w)))
    · cases (completeStore_inBounds s _ _ _ hb).symm.trans h
      refine .inl ⟨rfl, ?_⟩
      rintro _ _ ⟨⟩
      exact hb
    · cases (completeStore_outside s _ _ _ hb).symm.trans h
      exact .inr ⟨_, _, rfl, hb, rfl⟩
  have hop : i.opcode = opcodeOf w := opcode_of_decode hd
  rw [access_eq_none hload hstore]
  exact .inl ⟨exec_keeps_status (hop ▸ hload) (hop ▸ hstore) h, nofun⟩

theorem supported_of_access {w : Word} {a : Width × Word} (h : s.access w = some a) : opcodeOf w ∈ supportedOpcodes := by
  by_contra hnot
  have hload : opcodeOf w ≠ opcodeLoad := fun e => hnot (by rw [e]; decide)
  have hstore : opcodeOf w ≠ opcodeStore := fun e => hnot (by rw [e]; decide)
  rw [access_eq_none hload hstore] at h
  cases h

/-- The causes are sufficient: the step raises the fault whose cause is there. -/
theorem step_raises_of_faultCause {kind : Fault} {p info : Word} (hs : s.status = .running)
    (hc : s.FaultCause kind p info) : step s = .next (s.raise kind info) := by
  obtain ⟨-, hp, hcause⟩ := hc
  cases kind with
  | misalignedPC =>
    obtain ⟨ha, rfl⟩ := hcause
    exact step_misaligned hs hp ha
  | unsupportedOpcode =>
    obtain ⟨ha, rfl, hop⟩ := hcause
    rw [step_fetches hs hp ha, runWord_of_unsupported hop]
  | memoryOutOfBounds =>
    obtain ⟨ha, width, haccess, hb⟩ := hcause
    obtain ⟨i, hd⟩ := exists_decode_of_supported (supported_of_access haccess)
    obtain ⟨t, ht, -⟩ := exec_shape i s
    rw [step_fetches hs hp ha, runWord_of_decode hd, ht]
    obtain ⟨-, hin⟩ | ⟨_, _, haccess', -, rfl⟩ := exec_by_access hd ht
    · exact absurd (hin _ _ haccess) hb
    · cases haccess.symm.trans haccess'
      rfl

/-- The causes are necessary: a state a running machine has faulted into shows the cause in the state before. -/
theorem faultCause_of_step {kind : Fault} {p info : Word} (hs : s.status = .running) (h : step s = .next t)
    (ht : t.status = .faulted kind p info) : s.FaultCause kind p info := by
  cases StepShape.of_step h with
  | stopped hn => exact absurd hs hn
  | halts => cases ht
  | misaligned _ hp ha =>
    cases ht
    exact ⟨rfl, hp, ha, rfl⟩
  | unsupported _ hp ha r hd =>
    cases ht
    exact ⟨rfl, hp, ha, rfl, unsupported_of_decode_error hd⟩
  | runs _ hp ha i hd _ he =>
    obtain ⟨hkept, -⟩ | ⟨width, addr, haccess, hb, rfl⟩ := exec_by_access hd he
    · cases hs.symm.trans (hkept.symm.trans ht)
    · cases ht
      exact ⟨rfl, hp, ha, width, haccess, hb⟩

theorem status_faulted_iff_faultCause {kind : Fault} {p info : Word} (hs : s.status = .running)
    (h : step s = .next t) : t.status = .faulted kind p info ↔ s.FaultCause kind p info := by
  refine ⟨faultCause_of_step hs h, fun hc => ?_⟩
  obtain rfl : s.raise kind info = t := Host.Outcome.next.inj ((step_raises_of_faultCause hs hc).symm.trans h)
  rw [State.raise_status, hc.1]

/-- Inside the program, a word is the fetched one exactly when it stands at index pc / 4. -/
theorem eq_fetchWord_iff (hp : s.pc.toNat < s.maxAddress) (w : Word) :
    w = s.fetchWord ↔ s.imem[s.pc.toNat / 4]? = some w := by
  rw [getElem?_fetchWord hp, Option.some_inj, eq_comm]

/-- Settles O44: each kind's cause, with the fetched word written as an element of the program. -/
theorem faultsAreRaisedExactlyOnTheirCauses : Obligations.FaultsAreRaisedExactlyOnTheirCauses := by
  intro s t kind p info hs h
  rw [status_faulted_iff_faultCause hs h]
  refine and_congr_right fun _ => and_congr_right fun hp => ?_
  cases kind with
  | misalignedPC => exact Iff.rfl
  | unsupportedOpcode => exact and_congr_right fun _ => and_congr_left fun _ => eq_fetchWord_iff hp info
  | memoryOutOfBounds =>
    refine and_congr_right fun _ => ⟨?_, ?_⟩
    · rintro ⟨width, haccess, hb⟩
      exact ⟨_, width, getElem?_fetchWord hp, haccess, Nat.not_le.1 hb⟩
    · rintro ⟨w, width, hw, haccess, hb⟩
      rw [← (eq_fetchWord_iff hp w).2 hw]
      exact ⟨width, haccess, Nat.not_le.2 hb⟩

/-! The invariant of the machine. -/

theorem State.resetWith_reg (c : Config) (program : List Word) (r : RegIdx) : (State.resetWith c program).reg r = 0#32 := by
  by_cases hr : r = 0#5
  · exact if_pos hr
  · exact (State.reg_eq_slot _ hr).trans (Vector.getElem_replicate _)

/-- Settles O37: no byte is listed after reset, and every slot holds 0. -/
theorem resetStateIsAsStated : Obligations.ResetStateIsAsStated :=
  ⟨fun c program => ⟨fun _ => rfl, State.resetWith_reg c program, rfl, rfl, rfl, rfl⟩, rfl, rfl⟩

theorem State.resetWith_inv {c : Config} {program : List Word} (hc : c.Valid) (hlen : program.length ≤ maxProgramWords) :
    (State.resetWith c program).Inv where
  memoryCanonical := ⟨.nil, nofun⟩
  memoryInside := nofun
  slotZero := Vector.getElem_replicate _
  config := hc
  programFits := hlen
  haltedOutside := nofun
  faultNamed := nofun

/-- Settles O38: after reset no byte is listed and the machine is running. -/
theorem invariantHoldsAtReset : Obligations.InvariantHoldsAtReset :=
  ⟨fun _ _ => State.resetWith_inv, State.resetWith_inv (by decide) (Nat.zero_le _)⟩

/-- The invariant speaks of a halt or a fault only in the status. -/
theorem State.Inv.halt (h : s.Inv) (hp : s.maxAddress ≤ s.pc.toNat) : s.halt.Inv :=
  { h with haltedOutside := fun _ => hp, faultNamed := nofun }

theorem State.Inv.raise {kind : Fault} {info : Word} (h : s.Inv) (hc : s.FaultCause kind s.pc info) :
    (s.raise kind info).Inv :=
  { h with
    haltedOutside := nofun
    faultNamed := by
      rintro _ _ _ ⟨⟩
      exact hc }

/-- A register write and the clock tick of a running machine keep it. -/
theorem State.Inv.setReg_setPc (h : s.Inv) (hs : s.status = .running) (rd : RegIdx) (v nextPc : Word) :
    ((s.setReg rd v).setPc nextPc).Inv where
  memoryCanonical := by rw [State.setPc_dmem, State.setReg_dmem]; exact h.memoryCanonical
  memoryInside := by rw [State.setPc_dmem, State.setReg_dmem, State.setPc_cfg, State.setReg_cfg]; exact h.memoryInside
  slotZero := (s.setReg_slotZero rd v).trans h.slotZero
  config := by rw [State.setPc_cfg, State.setReg_cfg]; exact h.config
  programFits := by rw [State.setPc_imem, State.setReg_imem]; exact h.programFits
  haltedOutside := by rw [State.setPc_status, State.setReg_status, hs]; nofun
  faultNamed := by rw [State.setPc_status, State.setReg_status, hs]; nofun

theorem State.Inv.setPc (h : s.Inv) (hs : s.status = .running) (nextPc : Word) : (s.setPc nextPc).Inv :=
  h.setReg_setPc hs 0#5 0#32 nextPc

/-- A memory that is canonical and inside DMEM_SIZE keeps it. -/
theorem State.Inv.setDmem (h : s.Inv) (hs : s.status = .running) {m : Memory} (hwf : m.wf)
    (hinside : ∀ c ∈ m, c.1 < s.cfg.dmemSize) : (s.setDmem m).Inv :=
  { h with
    memoryCanonical := hwf
    memoryInside := hinside
    haltedOutside := by rw [State.setDmem_status, hs]; nofun
    faultNamed := by rw [State.setDmem_status, hs]; nofun }

/-- A write lists bytes of its access only, and the bounds test has kept those inside (20_memory R61). -/
theorem State.Inv.memWrite {w : Width} {addr v : Word} (h : s.Inv) (hs : s.status = .running)
    (hw : s.memWrite w addr v = some t) : t.Inv := by
  obtain ⟨hb, m, rfl, hwf, hlisted⟩ := State.memWrite_cases s t w addr v hw
  refine h.setDmem hs (hwf h.memoryCanonical) fun c hc => ?_
  obtain ⟨-, hin⟩ | hold := hlisted c hc
  · exact Nat.lt_of_lt_of_le hin hb
  · exact h.memoryInside c hold

/-- An instruction of a running machine that does not raise keeps it. -/
theorem State.Inv.exec {i : Instr} (h : s.Inv) (hs : s.status = .running) (he : exec i s = .next t)
    (hraise : ∀ addr, t ≠ s.raise .memoryOutOfBounds addr) : t.Inv := by
  cases ExecShape.of_exec he with
  | register rd v => exact h.setReg_setPc hs rd v _
  | pcOnly => exact h.setPc hs _
  | store w addr v u hw =>
    have hstatus : u.status = s.status := by
      obtain ⟨-, m, rfl, -⟩ := State.memWrite_cases s u w addr v hw
      rfl
    exact (h.memWrite hs hw).setPc (hstatus.trans hs) _
  | outOfBounds _ addr => exact absurd rfl (hraise addr)

/-- Settles O39: a fault is raised on its cause, and every other shape of a step changes nothing the invariant forbids. -/
theorem everyStepKeepsTheInvariant : Obligations.EveryStepKeepsTheInvariant := by
  intro s t h hstep
  cases StepShape.of_step hstep with
  | stopped => exact h
  | halts _ hp => exact h.halt hp
  | misaligned hs => exact h.raise (faultCause_of_step hs hstep rfl)
  | unsupported hs => exact h.raise (faultCause_of_step hs hstep rfl)
  | runs hs _ _ i _ _ he =>
    by_cases hraise : ∃ addr, t = s.raise .memoryOutOfBounds addr
    · obtain ⟨addr, rfl⟩ := hraise
      exact h.raise (faultCause_of_step hs hstep rfl)
    · exact h.exec hs he (not_exists.1 hraise)

end Sys2Proof.Machine

/-! The family of 10_state, dependence on registers: an instruction looks at no register but its sources (R23). -/

namespace Sys2Proof.Machine

/-- `t` after `s` and `t'` after `s'` end alike: both have completed, with one value in `dest`, or both have faulted. -/
def EndAlike (dest : Option RegIdx) (s s' t t' : State) : Prop :=
  t.pc = t'.pc ∧ t.dmem = t'.dmem ∧
    ((t.status = s.status ∧ t'.status = s'.status ∧ ∀ rd, dest = some rd → t.reg rd = t'.reg rd) ∨
      ∃ info, RaisesFault s t .memoryOutOfBounds info ∧ RaisesFault s' t' .memoryOutOfBounds info)

theorem inBounds_congr {s s' : State} (hcfg : s.cfg = s'.cfg) {w : Width} {addr : Word} :
    s.InBounds w addr ↔ s'.InBounds w addr := by
  unfold State.InBounds
  rw [hcfg]

section Alike
variable {s s' t t' : State} (hpc : s.pc = s'.pc) (hdmem : s.dmem = s'.dmem)

/-- The register just written reads the same in both, `x0` included. -/
theorem setReg_reg_alike (rd : RegIdx) (v : Word) : (s.setReg rd v).reg rd = (s'.setReg rd v).reg rd := by
  by_cases hrd : rd = 0#5
  · subst hrd
    rfl
  · rw [s.setReg_reg_self rd v hrd, s'.setReg_reg_self rd v hrd]

include hdmem in
theorem setReg_setPc_endAlike (rd : RegIdx) (v nextPc : Word) :
    EndAlike (some rd) s s' ((s.setReg rd v).setPc nextPc) ((s'.setReg rd v).setPc nextPc) := by
  refine ⟨rfl, ?_, .inl ⟨s.setReg_status rd v, s'.setReg_status rd v, ?_⟩⟩
  · rw [State.setPc_dmem, State.setPc_dmem, State.setReg_dmem, State.setReg_dmem, hdmem]
  · rintro _ ⟨⟩
    exact setReg_reg_alike rd v

include hpc hdmem

theorem raise_endAlike (dest : Option RegIdx) (info : Word) :
    EndAlike dest s s' (s.raise .memoryOutOfBounds info) (s'.raise .memoryOutOfBounds info) :=
  ⟨hpc, hdmem, .inr ⟨info, raisesFault_raise s _ info, raisesFault_raise s' _ info⟩⟩

theorem completeReg_endAlike {rd : RegIdx} {v v' : Word} (h : completeReg rd v s = .next t)
    (h' : completeReg rd v' s' = .next t') (hv : v = v') : EndAlike (some rd) s s' t t' := by
  subst hv
  cases h
  cases h'
  rw [State.nextPc, State.nextPc, hpc]
  exact setReg_setPc_endAlike hdmem rd v _

theorem completeJump_endAlike {rd : RegIdx} {d : Word} (h : completeJump rd d s = .next t)
    (h' : completeJump rd d s' = .next t') : EndAlike (some rd) s s' t t' := by
  cases h
  cases h'
  rw [State.nextPc, State.nextPc, hpc]
  exact setReg_setPc_endAlike hdmem rd _ _

theorem completeBranch_endAlike {a b a' b' d : Word} (h : completeBranch a b d s = .next t)
    (h' : completeBranch a' b' d s' = .next t') (ha : a = a') (hb : b = b') : EndAlike none s s' t t' := by
  subst ha hb
  cases h
  cases h'
  rw [State.nextPc, State.nextPc, hpc]
  exact ⟨rfl, hdmem, .inl ⟨rfl, rfl, nofun⟩⟩

variable (hcfg : s.cfg = s'.cfg)
include hcfg

theorem completeLoad_endAlike {rd : RegIdx} {addr addr' : Word} (h : completeLoad rd addr s = .next t)
    (h' : completeLoad rd addr' s' = .next t') (haddr : addr = addr') : EndAlike (some rd) s s' t t' := by
  subst haddr
  by_cases hb : s.InBounds .word addr
  · have hb' : s'.InBounds .word addr := (inBounds_congr hcfg).1 hb
    cases (completeLoad_inBounds s rd addr hb).symm.trans h
    cases (completeLoad_inBounds s' rd addr hb').symm.trans h'
    rw [hpc, hdmem]
    exact setReg_setPc_endAlike hdmem rd _ _
  · have hb' : ¬ s'.InBounds .word addr := mt (inBounds_congr hcfg).2 hb
    cases (completeLoad_outside s rd addr hb).symm.trans h
    cases (completeLoad_outside s' rd addr hb').symm.trans h'
    exact raise_endAlike hpc hdmem _ addr

theorem completeStore_endAlike {w : Width} {addr addr' v v' : Word} (h : completeStore w addr v s = .next t)
    (h' : completeStore w addr' v' s' = .next t') (haddr : addr = addr') (hv : v = v') : EndAlike none s s' t t' := by
  subst haddr hv
  by_cases hb : s.InBounds w addr
  · have hb' : s'.InBounds w addr := (inBounds_congr hcfg).1 hb
    cases (completeStore_inBounds s w addr v hb).symm.trans h
    cases (completeStore_inBounds s' w addr v hb').symm.trans h'
    refine ⟨congrArg (· + 4#32) hpc, ?_, .inl ⟨rfl, rfl, nofun⟩⟩
    exact congrArg (Memory.writeAt · w addr.toNat v) hdmem
  · have hb' : ¬ s'.InBounds w addr := mt (inBounds_congr hcfg).2 hb
    cases (completeStore_outside s w addr v hb).symm.trans h
    cases (completeStore_outside s' w addr v hb').symm.trans h'
    exact raise_endAlike hpc hdmem _ addr

end Alike

/-- Settles O48: an instruction is one of the completions, at operands it computes from its sources. -/
theorem resultsDependOnlyOnTheSourceRegisters : Obligations.ResultsDependOnlyOnTheSourceRegisters := by
  intro i s s' t t' hpc hdmem hcfg hsources h h'
  change EndAlike i.destination s s' t t'
  cases i
  case ori rd rs1 imm | srai rd rs1 shamt _ | opimmAdd rd rs1 imm | opimmSub rd rs1 imm | opimmXor rd rs1 imm
      | opimmAddF1 rd rs1 imm | opimmAddF23 rd rs1 imm _ | opimmAddF7 rd rs1 imm =>
    have h1 : s.reg rs1 = s'.reg rs1 := hsources rs1 (List.mem_cons_self ..)
    exact completeReg_endAlike hpc hdmem h h' (by rw [h1])
  case add rd rs1 rs2 _ | sub rd rs1 rs2 _ | xor rd rs1 rs2 _ | opSra rd rs1 rs2 _ | opOr rd rs1 rs2 _
      | opAddF1 rd rs1 rs2 _ | opAddF23 rd rs1 rs2 _ _ | opAddF7 rd rs1 rs2 _ =>
    have h1 : s.reg rs1 = s'.reg rs1 := hsources rs1 (List.mem_cons_self ..)
    have h2 : s.reg rs2 = s'.reg rs2 := hsources rs2 (List.mem_cons_of_mem _ (List.mem_cons_self ..))
    exact completeReg_endAlike hpc hdmem h h' (by rw [h1, h2])
  case lb rd rs1 imm | lw rd rs1 imm | loadF1 rd rs1 imm | loadF3 rd rs1 imm | loadF47 rd rs1 imm _ =>
    have h1 : s.reg rs1 = s'.reg rs1 := hsources rs1 (List.mem_cons_self ..)
    exact completeLoad_endAlike hpc hdmem hcfg h h' (by rw [h1])
  case sb rs1 rs2 imm | sw rs1 rs2 imm | storeF1 rs1 rs2 imm | storeF3 rs1 rs2 imm | storeF47 rs1 rs2 imm _ =>
    have h1 : s.reg rs1 = s'.reg rs1 := hsources rs1 (List.mem_cons_self ..)
    have h2 : s.reg rs2 = s'.reg rs2 := hsources rs2 (List.mem_cons_of_mem _ (List.mem_cons_self ..))
    exact completeStore_endAlike hpc hdmem hcfg h h' (by rw [h1]) h2
  case lui => exact completeReg_endAlike hpc hdmem h h' rfl
  case beq rs1 rs2 disp | branchF1 rs1 rs2 disp | branchF23 rs1 rs2 disp _ | branchF47 rs1 rs2 disp _ =>
    have h1 : s.reg rs1 = s'.reg rs1 := hsources rs1 (List.mem_cons_self ..)
    have h2 : s.reg rs2 = s'.reg rs2 := hsources rs2 (List.mem_cons_of_mem _ (List.mem_cons_self ..))
    exact completeBranch_endAlike hpc hdmem h h' h1 h2
  case jal => exact completeJump_endAlike hpc hdmem h h'

end Sys2Proof.Machine

/-! The family of 10_state and 41_cycle_sequencer, the pc along a run (R28 to R30, R166 to R168). -/

namespace Sys2Proof.Machine

variable {s t : State}

/-- Settles O50: the multiple of 4 next after `pc` is at most `max_address`, which fits in a word. -/
theorem sequentialAdvanceNeverWraps : Obligations.SequentialAdvanceNeverWraps := by
  intro s hfits hp ha
  have hmax : maxProgramWords = 2 ^ 30 - 1 := rfl
  have hle : s.pc.toNat + 4 ≤ 4 * s.imem.length := by omega
  refine ⟨?_, hle, by omega⟩
  rw [BitVec.toNat_add]
  exact Nat.mod_eq_of_lt (by rw [BitVec.toNat_ofNat]; omega)

/-! Branch and jump words are those with a displacement. -/

theorem displacementOf_of_opcodeBranch {w : Word} (h : opcodeOf w = opcodeBranch) :
    displacementOf w = some (dispB (dispBOf w)) := if_pos h

theorem displacementOf_of_opcodeJal {w : Word} (h : opcodeOf w = opcodeJal) :
    displacementOf w = some (dispJ (dispJOf w)) := by
  unfold displacementOf
  rw [h]
  rfl

theorem opcode_of_displacementOf {w d : Word} (h : displacementOf w = some d) :
    opcodeOf w = opcodeBranch ∨ opcodeOf w = opcodeJal := by
  unfold displacementOf at h
  split_ifs at h with hb hj
  · exact .inl hb
  · exact .inr hj

/-- Every sum of multiples of 4 is one, modulo 2^32 too. -/
theorem add_toNat_mod_four {a b : Word} (ha : a.toNat % 4 = 0) (hb : b.toNat % 4 = 0) : (a + b).toNat % 4 = 0 := by
  rw [BitVec.toNat_add]
  omega

/-- A step from a running state to a running one goes to the next instruction or by the displacement of its word. -/
theorem pc_of_step_running (hs : s.status = .running) (h : step s = .next t) (ht : t.status = .running) :
    t.pc = s.pc + 4#32 ∨ ∃ d, displacementOf s.fetchWord = some d ∧ t.pc = s.pc + d := by
  obtain ⟨hother, hbranch, hjal⟩ := nextPcOfEveryInstruction s t hs h ht
  by_cases hb : opcodeOf s.fetchWord = opcodeBranch
  · have hpc := hbranch hb
    split_ifs at hpc
    · exact .inr ⟨_, displacementOf_of_opcodeBranch hb, hpc⟩
    · exact .inl hpc
  by_cases hj : opcodeOf s.fetchWord = opcodeJal
  · exact .inr ⟨_, displacementOf_of_opcodeJal hj, hjal hj⟩
  · exact .inl (hother hb hj)

/-- Settles O51: the completion takes any target, and the alignment is tested by the fetch. -/
theorem aMisalignedTargetFaultsAtTheNextFetch : Obligations.AMisalignedTargetFaultsAtTheNextFetch := by
  refine ⟨fun s d hs hp ha hd => ?completes, fun s t hs ha h ht hmis => ⟨?opcode, fun hp => ?faults⟩⟩
  case completes =>
    rw [step_fetches hs hp ha]
    obtain hb | hj := opcode_of_displacementOf hd
    · cases (displacementOf_of_opcodeBranch hb).symm.trans hd
      obtain ⟨t, hexec, hmoves⟩ := completeBranch_movesPcOnly s (s.reg (rs1Of s.fetchWord)) (s.reg (rs2Of s.fetchWord))
        (dispB (dispBOf s.fetchWord))
      rw [runWord_of_decode (decode_of_opcodeBranch hb), exec_decodeBranch, hexec, hb]
      exact ⟨t, rfl, hmoves.status.trans hs, nofun, fun _ => hmoves⟩
    · cases (displacementOf_of_opcodeJal hj).symm.trans hd
      obtain ⟨t, hexec, hwrites⟩ := completeJump_writesRegister s (rdOf s.fetchWord) (dispJ (dispJOf s.fetchWord))
      rw [runWord_of_decode (decode_of_opcodeJal hj), hj]
      exact ⟨t, hexec, hwrites.status.trans hs, fun _ => hwrites, nofun⟩
  case opcode =>
    obtain hpc | ⟨d, hd, -⟩ := pc_of_step_running hs h ht
    · exact absurd (hpc ▸ add_toNat_mod_four ha rfl) hmis
    · exact opcode_of_displacementOf hd
  case faults => exact ⟨_, step_misaligned ht hp hmis, raisesFault_raise t _ _⟩

/-- A step that ends in a state that is not running moves no pc. -/
theorem pc_of_step_stopped (h : step s = .next t) (ht : t.status ≠ .running) : t.pc = s.pc := by
  cases StepShape.of_step h with
  | stopped | halts | misaligned | unsupported => rfl
  | runs hs _ _ i _ _ he =>
    obtain hkept | ⟨addr, rfl⟩ := exec_status_eq_or_raise he
    · exact absurd (hkept.trans hs) ht
    · rfl

/-- What holds along a run of an aligned program. -/
structure AlignedRun (s : State) : Prop where
  pc : s.pc.toNat % 4 = 0
  notMisaligned : ∀ p info, s.status ≠ .faulted .misalignedPC p info
  program : AlignedProgram s.imem

theorem AlignedRun.pc_of_step (ha : AlignedRun s) (h : step s = .next t) : t.pc.toNat % 4 = 0 := by
  by_cases ht : t.status = .running
  case neg => exact pc_of_step_stopped h ht ▸ ha.pc
  cases StepShape.of_step h with
  | stopped => exact ha.pc
  | halts => cases ht
  | misaligned => cases ht
  | unsupported => cases ht
  | runs hs hp =>
    obtain hpc | ⟨d, hd, hpc⟩ := pc_of_step_running hs h ht
    · exact hpc ▸ add_toNat_mod_four ha.pc rfl
    · exact hpc ▸ add_toNat_mod_four ha.pc (ha.program _ (fetchWord_mem hp) d hd)

theorem AlignedRun.step (ha : AlignedRun s) (h : step s = .next t) : AlignedRun t where
  pc := ha.pc_of_step h
  notMisaligned p info ht := by
    by_cases hs : s.status = .running
    · obtain ⟨-, -, hmis, -⟩ := faultCause_of_step hs h ht
      exact hmis ha.pc
    · cases (step_of_not_running hs).symm.trans h
      exact ha.notMisaligned p info ht
  program := (step_keeps_program h).1 ▸ ha.program

/-- Settles O52: the step's causes of MisalignedPC cannot arise in an aligned run. -/
theorem alignedProgramsNeverFaultOnFetch : Obligations.AlignedProgramsNeverFaultOnFetch := by
  intro s t hs ha hprogram hrun
  have hstart : AlignedRun s := ⟨ha, by rw [hs]; nofun, hprogram⟩
  have hend : AlignedRun t := hrun.invariant (fun _ _ => AlignedRun.step) hstart
  exact ⟨hend.pc, hend.notMisaligned⟩

/-! A straight-line program advances at every step until it stops. -/

theorem run_succ_of_step (h : step s = .next t) (k : Nat) :
    Host.Core.run Sys2Proof.core (k + 1) s = Host.Core.run Sys2Proof.core k t := by
  have hcore : Sys2Proof.core.step s = .next t := h
  simp only [Host.Core.run, hcore]

theorem run_of_stopped (hs : s.status ≠ .running) (k : Nat) : Host.Core.run Sys2Proof.core k s = .next s := by
  induction k with
  | zero => rfl
  | succ k ih => rw [run_succ_of_step (step_of_not_running hs), ih]

/-- A running machine before a straight-line program has ended. -/
structure StraightRun (s : State) : Prop where
  running : s.status = .running
  pc : s.pc.toNat % 4 = 0
  fits : s.imem.length ≤ maxProgramWords
  straight : StraightLine s.imem

theorem step_of_end (hs : s.status = .running) (hp : s.maxAddress ≤ s.pc.toNat) : step s = .next s.halt := by
  rw [step_of_running hs, runCycle, if_pos hp]

/-- Each step of it stops the machine or moves the pc on by 4. -/
theorem StraightRun.step (hr : StraightRun s) (hp : s.pc.toNat < s.maxAddress) (h : step s = .next t)
    (ht : t.status = .running) : StraightRun t ∧ t.pc.toNat = s.pc.toNat + 4 ∧ t.maxAddress = s.maxAddress := by
  obtain ⟨himem, -⟩ := step_keeps_program h
  have hword : displacementOf s.fetchWord = none := hr.straight _ (fetchWord_mem hp)
  obtain hpc | ⟨d, hd, -⟩ := pc_of_step_running hr.running h ht
  · obtain ⟨hnext, -⟩ := sequentialAdvanceNeverWraps s hr.fits hp hr.pc
    have hadvance : t.pc.toNat = s.pc.toNat + 4 := hpc ▸ hnext
    exact ⟨⟨ht, by rw [hadvance, Nat.add_mod_right, hr.pc], himem ▸ hr.fits, himem ▸ hr.straight⟩, hadvance,
      congrArg (4 * ·.length) himem⟩
  · cases hword.symm.trans hd

/-- With `n` instructions left, `n + 1` steps stop the machine. -/
theorem StraightRun.stops {n : Nat} (hr : StraightRun s) (hleft : s.maxAddress ≤ s.pc.toNat + 4 * n) :
    ∃ t, Host.Core.run Sys2Proof.core (n + 1) s = .next t ∧ t.status ≠ .running := by
  induction n generalizing s with
  | zero =>
    rw [run_succ_of_step (step_of_end hr.running hleft)]
    exact ⟨s.halt, rfl, nofun⟩
  | succ n ih =>
    obtain ⟨t, hstep, -⟩ := step_shape s
    rw [run_succ_of_step hstep]
    by_cases ht : t.status = .running
    case neg => exact ⟨t, run_of_stopped ht _, ht⟩
    have hp : s.pc.toNat < s.maxAddress := by
      by_contra hend
      cases (step_of_end hr.running (Nat.not_lt.1 hend)).symm.trans hstep
      cases ht
    obtain ⟨hrt, hpc, hmax⟩ := hr.step hp hstep ht
    exact ih hrt (by omega)

/-- Settles O53: at the start at most NINSTR instructions are left. -/
theorem straightLineProgramsStop : Obligations.StraightLineProgramsStop := fun _ hs ha hfits hstraight =>
  StraightRun.stops ⟨hs, ha, hfits, hstraight⟩ (Nat.le_add_left _ _)

end Sys2Proof.Machine
